-- ==== Sys2Proof/Word.lean ====
section
/-! DEFINITION. The block's words (R5, R7) and the input ports of one operation (R33). -/

namespace Sys2Proof

/-- Content of a single register, and the packed flags byte (R5, R12, R18). -/
abbrev Byte := BitVec 8

/-- A register pair's value, and the ports `din` and `dout` (R5, R20, R33). -/
abbrev Word16 := BitVec 16

/-- The port form of the flags: zero in bit 3, subtraction 2, half_carry 1, carry 0 (R38). -/
abbrev FlagVector := BitVec 4

/-- The operation selector `op` (R34). -/
abbrev Selector := BitVec 5

/-- One operation as the caller issues it: the values of the two input ports (R33). -/
structure Request where
  op  : Selector
  din : Word16
  deriving DecidableEq, Repr

end Sys2Proof
end

