-- ==== Sys2Proof/Machine/Operands.lean ====
section
/-! DEFINITION. Operand selection from `din` (R37), result placement on `dout` (R39), and the two halves of
a 16-bit value (R6, R8, R26). -/

namespace Sys2Proof

/-- `din[7:0]`, the operand of the 8-bit SET_* operations and of DECODE (R37). -/
def Request.byteOperand (r : Request) : Byte := r.din.extractLsb' 0 8

/-- `din[15:0]`, the operand of the pair SET_* operations (R37). -/
def Request.wordOperand (r : Request) : Word16 := r.din

/-- `din[3:0]`, the flag vector of SET_F and ENCODE (R37). -/
def Request.flagOperand (r : Request) : FlagVector := r.din.extractLsb' 0 4

end Sys2Proof

namespace Sys2Proof.Machine

/-- A byte on `dout`: `zext_16` (R39). -/
def placeByte (b : Byte) : Word16 := b.setWidth 16

/-- A flag vector on `dout`: `zext_16` (R39). -/
def placeFlags (fv : FlagVector) : Word16 := fv.setWidth 16

/-- `v[15:8]`, the high half (R6, R26). -/
def hiByte (v : Word16) : Byte := v.extractLsb' 8 8

/-- `v[7:0]`, the low half (R6, R26). -/
def loByte (v : Word16) : Byte := v.extractLsb' 0 8

/-- `{hi, lo} = (zext_16(hi) << 8) | zext_16(lo)` (R8). -/
def concat (hi lo : Byte) : Word16 := hi.setWidth 16 <<< 8 ||| lo.setWidth 16

end Sys2Proof.Machine
end

