-- ==== Sys2Proof/Syntax.lean ====
section
/-! DEFINITION. The block's operations: one constructor per row of spec/opcode_table.json. -/

namespace Sys2Proof

/-- An operation with its operand at the operand's own width (R37). A SET_* or codec operation carries
its operand; a GET_* and a reserved selector carry none. -/
inductive Instr where
  /-- GET_B (R61) -/
  | getB
  /-- GET_C (R62) -/
  | getC
  /-- GET_D (R63) -/
  | getD
  /-- GET_E (R64) -/
  | getE
  /-- GET_H (R65) -/
  | getH
  /-- GET_L (R66) -/
  | getL
  /-- GET_F (R74) -/
  | getF
  /-- GET_A (R60) -/
  | getA
  /-- GET_BC (R50) -/
  | getBC
  /-- GET_DE (R51) -/
  | getDE
  /-- GET_HL (R52) -/
  | getHL
  /-- GET_AF (R49) -/
  | getAF
  /-- ENCODE fv (R43) -/
  | flagsEncode (fv : FlagVector)
  /-- SET_B v (R68) -/
  | setB (v : Byte)
  /-- SET_C v (R69) -/
  | setC (v : Byte)
  /-- SET_D v (R70) -/
  | setD (v : Byte)
  /-- SET_E v (R71) -/
  | setE (v : Byte)
  /-- SET_H v (R72) -/
  | setH (v : Byte)
  /-- SET_L v (R73) -/
  | setL (v : Byte)
  /-- SET_F fv (R75) -/
  | setF (fv : FlagVector)
  /-- SET_A v (R67) -/
  | setA (v : Byte)
  /-- SET_BC v (R54) -/
  | setBC (v : Word16)
  /-- SET_DE v (R55) -/
  | setDE (v : Word16)
  /-- SET_HL v (R56) -/
  | setHL (v : Word16)
  /-- SET_AF v (R53) -/
  | setAF (v : Word16)
  /-- DECODE b (R44) -/
  | flagsDecode (b : Byte)
  /-- Reserved selector 0x0D (R40) -/
  | reserved0D
  /-- Reserved selector 0x0E (R40) -/
  | reserved0E
  /-- Reserved selector 0x0F (R40) -/
  | reserved0F
  /-- Reserved selector 0x1D (R40) -/
  | reserved1D
  /-- Reserved selector 0x1E (R40) -/
  | reserved1E
  /-- Reserved selector 0x1F (R40) -/
  | reserved1F
  deriving DecidableEq, Repr

end Sys2Proof
end

