-- ==== Sys2Proof/WellFormed.lean ====
section
/-! DEFINITION. Which terms of `Instr` name an operation of the block (R40). Operand ranges need no check:
each operand has exactly the width R37 gives it, and every value of that width is legal. -/

namespace Sys2Proof

/-- The 26 operations are well-formed; the six reserved selectors name no operation (R40). -/
def Instr.wellFormed : Instr → Bool
  | .getB | .getC | .getD | .getE | .getH | .getL | .getF | .getA => true
  | .getBC | .getDE | .getHL | .getAF => true
  | .setB _ | .setC _ | .setD _ | .setE _ | .setH _ | .setL _ | .setF _ | .setA _ => true
  | .setBC _ | .setDE _ | .setHL _ | .setAF _ => true
  | .flagsEncode _ | .flagsDecode _ => true
  | .reserved0D | .reserved0E | .reserved0F => false
  | .reserved1D | .reserved1E | .reserved1F => false

end Sys2Proof
end

