-- ==== Sys2Proof/Decode.lean ====
section
/-! DEFINITION. Selector decoding (R34 to R37), the encoder, and the word form of a request that the host's
checks use (log 2). -/

namespace Sys2Proof

/-- The operation a request names: the five selector bits are W, K, sel[2], sel[1], sel[0] (R34, R35, R36);
the operand is taken from the bits of `din` that R37 names. Total: every selector is a row (R40). -/
def decode (r : Request) : Instr :=
  match r.op.getLsbD 4, r.op.getLsbD 3, r.op.getLsbD 2, r.op.getLsbD 1, r.op.getLsbD 0 with
  | false, false, false, false, false => .getB
  | false, false, false, false, true  => .getC
  | false, false, false, true,  false => .getD
  | false, false, false, true,  true  => .getE
  | false, false, true,  false, false => .getH
  | false, false, true,  false, true  => .getL
  | false, false, true,  true,  false => .getF
  | false, false, true,  true,  true  => .getA
  | false, true,  false, false, false => .getBC
  | false, true,  false, false, true  => .getDE
  | false, true,  false, true,  false => .getHL
  | false, true,  false, true,  true  => .getAF
  | false, true,  true,  false, false => .flagsEncode r.flagOperand
  | false, true,  true,  false, true  => .reserved0D
  | false, true,  true,  true,  false => .reserved0E
  | false, true,  true,  true,  true  => .reserved0F
  | true,  false, false, false, false => .setB r.byteOperand
  | true,  false, false, false, true  => .setC r.byteOperand
  | true,  false, false, true,  false => .setD r.byteOperand
  | true,  false, false, true,  true  => .setE r.byteOperand
  | true,  false, true,  false, false => .setH r.byteOperand
  | true,  false, true,  false, true  => .setL r.byteOperand
  | true,  false, true,  true,  false => .setF r.flagOperand
  | true,  false, true,  true,  true  => .setA r.byteOperand
  | true,  true,  false, false, false => .setBC r.wordOperand
  | true,  true,  false, false, true  => .setDE r.wordOperand
  | true,  true,  false, true,  false => .setHL r.wordOperand
  | true,  true,  false, true,  true  => .setAF r.wordOperand
  | true,  true,  true,  false, false => .flagsDecode r.byteOperand
  | true,  true,  true,  false, true  => .reserved1D
  | true,  true,  true,  true,  false => .reserved1E
  | true,  true,  true,  true,  true  => .reserved1F

/-- The request that issues an instruction: its selector (R35, R36), and its operand in the low bits of
`din` with the ignored bits zero (R37). -/
def encode : Instr → Request
  | .getB => ⟨0x00#5, 0#16⟩
  | .getC => ⟨0x01#5, 0#16⟩
  | .getD => ⟨0x02#5, 0#16⟩
  | .getE => ⟨0x03#5, 0#16⟩
  | .getH => ⟨0x04#5, 0#16⟩
  | .getL => ⟨0x05#5, 0#16⟩
  | .getF => ⟨0x06#5, 0#16⟩
  | .getA => ⟨0x07#5, 0#16⟩
  | .getBC => ⟨0x08#5, 0#16⟩
  | .getDE => ⟨0x09#5, 0#16⟩
  | .getHL => ⟨0x0A#5, 0#16⟩
  | .getAF => ⟨0x0B#5, 0#16⟩
  | .flagsEncode fv => ⟨0x0C#5, fv.setWidth 16⟩
  | .reserved0D => ⟨0x0D#5, 0#16⟩
  | .reserved0E => ⟨0x0E#5, 0#16⟩
  | .reserved0F => ⟨0x0F#5, 0#16⟩
  | .setB v => ⟨0x10#5, v.setWidth 16⟩
  | .setC v => ⟨0x11#5, v.setWidth 16⟩
  | .setD v => ⟨0x12#5, v.setWidth 16⟩
  | .setE v => ⟨0x13#5, v.setWidth 16⟩
  | .setH v => ⟨0x14#5, v.setWidth 16⟩
  | .setL v => ⟨0x15#5, v.setWidth 16⟩
  | .setF fv => ⟨0x16#5, fv.setWidth 16⟩
  | .setA v => ⟨0x17#5, v.setWidth 16⟩
  | .setBC v => ⟨0x18#5, v⟩
  | .setDE v => ⟨0x19#5, v⟩
  | .setHL v => ⟨0x1A#5, v⟩
  | .setAF v => ⟨0x1B#5, v⟩
  | .flagsDecode b => ⟨0x1C#5, b.setWidth 16⟩
  | .reserved1D => ⟨0x1D#5, 0#16⟩
  | .reserved1E => ⟨0x1E#5, 0#16⟩
  | .reserved1F => ⟨0x1F#5, 0#16⟩

/-- A row of spec/opcode_table.json: its name, its selector, how many low bits of `din` it uses (R37), and
whether it names no operation (R40). -/
structure OpcodeRow where
  mnemonic    : String
  op          : Selector
  operandBits : Nat
  reserved    : Bool
  deriving DecidableEq, Repr

/-- The rows with `W = 0`: reads, ENCODE and three reserved selectors (R35, R36). -/
def readRows : List OpcodeRow :=
  [⟨"GET_B", 0x00#5, 0, false⟩, ⟨"GET_C", 0x01#5, 0, false⟩, ⟨"GET_D", 0x02#5, 0, false⟩,
   ⟨"GET_E", 0x03#5, 0, false⟩, ⟨"GET_H", 0x04#5, 0, false⟩, ⟨"GET_L", 0x05#5, 0, false⟩,
   ⟨"GET_F", 0x06#5, 0, false⟩, ⟨"GET_A", 0x07#5, 0, false⟩] ++
  [⟨"GET_BC", 0x08#5, 0, false⟩, ⟨"GET_DE", 0x09#5, 0, false⟩, ⟨"GET_HL", 0x0A#5, 0, false⟩,
   ⟨"GET_AF", 0x0B#5, 0, false⟩, ⟨"ENCODE", 0x0C#5, 4, false⟩, ⟨"RESERVED_0D", 0x0D#5, 0, true⟩,
   ⟨"RESERVED_0E", 0x0E#5, 0, true⟩, ⟨"RESERVED_0F", 0x0F#5, 0, true⟩]

/-- The rows with `W = 1`: writes, DECODE and three reserved selectors (R35, R36). -/
def writeRows : List OpcodeRow :=
  [⟨"SET_B", 0x10#5, 8, false⟩, ⟨"SET_C", 0x11#5, 8, false⟩, ⟨"SET_D", 0x12#5, 8, false⟩,
   ⟨"SET_E", 0x13#5, 8, false⟩, ⟨"SET_H", 0x14#5, 8, false⟩, ⟨"SET_L", 0x15#5, 8, false⟩,
   ⟨"SET_F", 0x16#5, 4, false⟩, ⟨"SET_A", 0x17#5, 8, false⟩] ++
  [⟨"SET_BC", 0x18#5, 16, false⟩, ⟨"SET_DE", 0x19#5, 16, false⟩, ⟨"SET_HL", 0x1A#5, 16, false⟩,
   ⟨"SET_AF", 0x1B#5, 16, false⟩, ⟨"DECODE", 0x1C#5, 8, false⟩, ⟨"RESERVED_1D", 0x1D#5, 0, true⟩,
   ⟨"RESERVED_1E", 0x1E#5, 0, true⟩, ⟨"RESERVED_1F", 0x1F#5, 0, true⟩]

/-- The opcode table: all 32 rows. -/
def opcodeTable : List OpcodeRow := readRows ++ writeRows

/-- Why a word is no request. The decoder raises both; both are safe, since nothing runs. -/
inductive DecodeError where
  /-- Bits 7:5 of the first byte are not zero: the selector port has five bits (R34, R42). -/
  | selectorTooWide
  /-- A bit above the two operand bytes is set: `din` has 16 bits (R33). -/
  | operandTooWide
  deriving DecidableEq, Repr

/-- A request as one number (DESIGN CHOICE, log 2): `op` in the first byte, `din` in the two bytes after it,
low byte first. -/
def Request.ofWord (w : Nat) : Except DecodeError Request :=
  if 32 ≤ w % 256 then .error .selectorTooWide
  else if 65536 ≤ w / 256 then .error .operandTooWide
  else .ok ⟨BitVec.ofNat 5 w, BitVec.ofNat 16 (w / 256)⟩

/-- The number `Request.ofWord` reads back (log 2). -/
def Request.toWord (r : Request) : Nat := r.op.toNat + 256 * r.din.toNat

/-- The request in the low `nbits` bits of `w`, every bit above them zero. -/
def Request.ofTableWord (nbits w : Nat) : Except DecodeError Request :=
  Request.ofWord (w % 2 ^ nbits)

/-- The instruction of a word whose bits are numbered as spec/opcode_table.json numbers them. -/
def decodeTableWord (nbits w : Nat) : Option Instr :=
  match Request.ofTableWord nbits w with
  | .ok r => some (decode r)
  | .error _ => none

end Sys2Proof
end

