-- ==== Sys2Proof/Config.lean ====
section
/-! DEFINITION. What the CPU-state collaborator supplies when it constructs the block (R24, R83).
The spec leaves every stored bit's first value OPEN (`init_state`); `State.construct` takes it as an
argument, and these are the values `State.reset` hands it. -/

namespace Sys2Proof.Config

/-- DESIGN CHOICE (log 1), unsafe: the first value of each of a, b, c, d, e, h, l. No statement rests on it
but the one that names it. -/
def initByte : Byte := 0x00#8

/-- DESIGN CHOICE (log 1), unsafe: the first value of each of the four flags. -/
def initFlag : Bool := false

end Sys2Proof.Config
end

