-- ==== Sys2Proof/Machine/State.lean ====
section
/-! DEFINITION. The machine's state as plain data (R11), the ways a step can stop, and reset (R24, R83). -/

namespace Sys2Proof.Machine

/-- The FlagsRegister: four stored booleans, every combination legal (R11, R15, R17). -/
structure Flags where
  zero        : Bool
  subtraction : Bool
  halfCarry   : Bool
  carry       : Bool
  deriving DecidableEq, Repr

/-- The block's whole stored state: 60 bits (R11). Every value of every field is legal (R12, R15). -/
structure RegisterFile where
  a : Byte
  b : Byte
  c : Byte
  d : Byte
  e : Byte
  h : Byte
  l : Byte
  f : Flags
  deriving DecidableEq, Repr

/-- The names of the seven single registers (R9, R12). -/
inductive Reg8 where
  | a | b | c | d | e | h | l
  deriving DecidableEq, Repr

/-- The names of the four pairs (R19). -/
inductive Pair where
  | af | bc | de | hl
  deriving DecidableEq, Repr

/-- Reasons to stop with a fault. There is none: the block raises no exception (R77; log 6). -/
inductive Fault
  deriving DecidableEq, Repr

/-- Reasons for the model to give an instruction no meaning. The refusal R40 describes is none of these:
it is a step (log 5). -/
inductive Refusal where
  /-- Raised by an arm of `exec` that has no meaning yet (no arm is left so); safe, since nothing runs. -/
  | notModelled (mnemonic : String)
  deriving DecidableEq, Repr

/-- The block with its ports and the run's refusal mark. -/
structure State where
  /-- The stored state (R11). -/
  regs : RegisterFile
  /-- The operations issued and not yet run, oldest first (R30, R33; the list is the model's, log 2). -/
  input : List Request
  /-- What the last operation returned, in its `dout` form; `none` after a write or a refusal (R9, R39). -/
  result : Option Word16
  /-- Set by a refused step, and set for the rest of the run (R40). -/
  refusalMark : Bool
  deriving DecidableEq, Repr

/-- The block as its CPU-state collaborator constructs it, with the OPEN parameter `init_state` as an
argument (R24, R83). Nothing is issued, returned or refused yet (log 2, log 4, log 5). -/
def State.construct (init : RegisterFile) : State :=
  { regs := init, input := [], result := none, refusalMark := false }

/-- The first state. The spec states no register's first value; DESIGN CHOICE (log 1), unsafe. -/
def State.reset : State :=
  State.construct
    { a := Config.initByte, b := Config.initByte, c := Config.initByte, d := Config.initByte
      e := Config.initByte, h := Config.initByte, l := Config.initByte
      f := { zero := Config.initFlag, subtraction := Config.initFlag
             halfCarry := Config.initFlag, carry := Config.initFlag } }

end Sys2Proof.Machine
end

