-- ==== Sys2Proof/Machine/Flags.lean ====
section
/-! DEFINITION. The flags codec: packed byte (R43, R44) and flag vector (R38). The block computes no flag
(R16). -/

namespace Sys2Proof.Machine

/-- A boolean as one bit of a byte (R7). -/
def flagBit (x : Bool) : Byte := if x then 1#8 else 0#8

/-- `encode(fl)`: zero in bit 7, subtraction 6, half_carry 5, carry 4, bits 3:0 zero (R43). -/
def encodeFlags (fl : Flags) : Byte :=
  flagBit fl.zero <<< 7 ||| flagBit fl.subtraction <<< 6 ||| flagBit fl.halfCarry <<< 5 ||| flagBit fl.carry <<< 4

/-- `decode(b)`: each flag is its mask AND-ed with the byte, tested for nonzero (R44, R48, C1). -/
def decodeFlags (b : Byte) : Flags :=
  { zero        := (b &&& 0x80#8) != 0#8
    subtraction := (b &&& 0x40#8) != 0#8
    halfCarry   := (b &&& 0x20#8) != 0#8
    carry       := (b &&& 0x10#8) != 0#8 }

/-- `fv = {zero, subtraction, half_carry, carry}` (R38). -/
def flagsToVector (fl : Flags) : FlagVector :=
  BitVec.ofBool fl.zero ++ BitVec.ofBool fl.subtraction ++ BitVec.ofBool fl.halfCarry ++ BitVec.ofBool fl.carry

/-- The flags a vector stands for (R38). -/
def flagsOfVector (fv : FlagVector) : Flags :=
  { zero := fv.getLsbD 3, subtraction := fv.getLsbD 2, halfCarry := fv.getLsbD 1, carry := fv.getLsbD 0 }

end Sys2Proof.Machine
end

