-- ==== Sys2Proof/Machine/Ops.lean ====
section
/-! DEFINITION. The shared operations: reading and writing registers and pairs (R9, R13, R20), ending a step
with or without a result (R9, R39), refusing a step (R40), and the caller's queue (log 2). The block takes no
exception (R77, R79), so there is no exception entry or return here. -/

namespace Sys2Proof.Machine

/-- `x[r]` (R9). -/
def RegisterFile.read (rf : RegisterFile) : Reg8 → Byte
  | .a => rf.a
  | .b => rf.b
  | .c => rf.c
  | .d => rf.d
  | .e => rf.e
  | .h => rf.h
  | .l => rf.l

/-- `x[r] <- v` (R9); every other field is unchanged (R14). -/
def RegisterFile.write (rf : RegisterFile) : Reg8 → Byte → RegisterFile
  | .a, v => { rf with a := v }
  | .b, v => { rf with b := v }
  | .c, v => { rf with c := v }
  | .d, v => { rf with d := v }
  | .e, v => { rf with e := v }
  | .h, v => { rf with h := v }
  | .l, v => { rf with l := v }

/-- `F <- fl`: all four flags at once (R9). -/
def RegisterFile.writeFlags (rf : RegisterFile) (fl : Flags) : RegisterFile := { rf with f := fl }

/-- A pair is recomputed from its halves on every read, high byte first (R19, R20). -/
def RegisterFile.readPair (rf : RegisterFile) : Pair → Word16
  | .af => concat (rf.read .a) (encodeFlags rf.f)
  | .bc => concat (rf.read .b) (rf.read .c)
  | .de => concat (rf.read .d) (rf.read .e)
  | .hl => concat (rf.read .h) (rf.read .l)

/-- A pair is decomposed into its halves on every write; AF's low half goes through the codec (R20, R53). -/
def RegisterFile.writePair (rf : RegisterFile) : Pair → Word16 → RegisterFile
  | .af, v => (rf.write .a (hiByte v)).writeFlags (decodeFlags (loByte v))
  | .bc, v => (rf.write .b (hiByte v)).write .c (loByte v)
  | .de, v => (rf.write .d (hiByte v)).write .e (loByte v)
  | .hl, v => (rf.write .h (hiByte v)).write .l (loByte v)

/-- `result <- v`, with no state change: how a GET_* or codec operation ends (R9, R29). -/
def State.answer (s : State) (v : Word16) : State := { s with result := some v }

/-- The stored state becomes `rf` and `result <- none`: how a SET_* operation ends (R9, R39). -/
def State.store (s : State) (rf : RegisterFile) : State := { s with regs := rf, result := none }

/-- `refuse`: no state change, no result, and the mark set for the rest of the run (R40). -/
def State.refuse (s : State) : State := { s with result := none, refusalMark := true }

/-- The output port: the last result, and 0x0000 where there is none (R33, R39). -/
def State.dout (s : State) : Word16 := s.result.getD 0x0000#16

/-- The caller issues one more operation, to run after those already issued (R30, R31). -/
def State.issue (s : State) (r : Request) : State := { s with input := s.input ++ [r] }

/-- The request at the front of the queue and the state without it; `none` where nothing is issued. -/
def State.fetch (s : State) : Option (Request × State) :=
  match s.input with
  | [] => none
  | r :: rest => some (r, { s with input := rest })

/-- `r` put before everything already issued, so that the next step runs it. -/
def State.issueFirst (s : State) (r : Request) : State := { s with input := r :: s.input }

end Sys2Proof.Machine
end

