-- ==== Sys2Proof/Machine/Codec.lean ====
section
/-! DEFINITION. The codec operations, which neither read nor write the stored flags (R43, R44). -/

namespace Sys2Proof.Machine

/-- ENCODE fv (R43): the result is the packed byte of the operand's flags. -/
def execFlagsEncode (fv : FlagVector) (s : State) : Host.Outcome State Fault Refusal :=
  .next (s.answer (placeByte (encodeFlags (flagsOfVector fv))))

/-- DECODE b (R44): the result is the flag vector of the byte's flags. -/
def execFlagsDecode (b : Byte) (s : State) : Host.Outcome State Fault Refusal :=
  .next (s.answer (placeFlags (flagsToVector (decodeFlags b))))

end Sys2Proof.Machine
end

