-- ==== Sys2Proof/Machine/FlagAccess.lean ====
section
/-! DEFINITION. The flag-vector operations (R74, R75). -/

namespace Sys2Proof.Machine

/-- GET_F (R74): the result is the stored flags as a flag vector; no side effect. -/
def execGetF (s : State) : Host.Outcome State Fault Refusal :=
  .next (s.answer (placeFlags (flagsToVector s.regs.f)))

/-- SET_F fv (R75): all four flags are written; no register changes. -/
def execSetF (fv : FlagVector) (s : State) : Host.Outcome State Fault Refusal :=
  .next (s.store (s.regs.writeFlags (flagsOfVector fv)))

end Sys2Proof.Machine
end

