-- ==== Sys2Proof/Machine/Pairs.lean ====
section
/-! DEFINITION. The register-pair operations (R49 to R56). -/

namespace Sys2Proof.Machine

/-- GET_AF (R49): the result is {a, encode(f)}; no side effect. -/
def execGetAF (s : State) : Host.Outcome State Fault Refusal :=
  .next (s.answer (s.regs.readPair .af))

/-- GET_BC (R50): the result is {b, c}; no side effect. -/
def execGetBC (s : State) : Host.Outcome State Fault Refusal :=
  .next (s.answer (s.regs.readPair .bc))

/-- GET_DE (R51): the result is {d, e}; no side effect. -/
def execGetDE (s : State) : Host.Outcome State Fault Refusal :=
  .next (s.answer (s.regs.readPair .de))

/-- GET_HL (R52): the result is {h, l}; no side effect. -/
def execGetHL (s : State) : Host.Outcome State Fault Refusal :=
  .next (s.answer (s.regs.readPair .hl))

/-- SET_AF v (R53): a takes v[15:8] and all four flags take decode(v[7:0]), in one step. -/
def execSetAF (v : Word16) (s : State) : Host.Outcome State Fault Refusal :=
  .next (s.store (s.regs.writePair .af v))

/-- SET_BC v (R54): b takes v[15:8] and c takes v[7:0], in one step. -/
def execSetBC (v : Word16) (s : State) : Host.Outcome State Fault Refusal :=
  .next (s.store (s.regs.writePair .bc v))

/-- SET_DE v (R55): d takes v[15:8] and e takes v[7:0], in one step. -/
def execSetDE (v : Word16) (s : State) : Host.Outcome State Fault Refusal :=
  .next (s.store (s.regs.writePair .de v))

/-- SET_HL v (R56): h takes v[15:8] and l takes v[7:0], in one step. -/
def execSetHL (v : Word16) (s : State) : Host.Outcome State Fault Refusal :=
  .next (s.store (s.regs.writePair .hl v))

end Sys2Proof.Machine
end

