-- ==== Sys2Proof/Machine/Reserved.lean ====
section
/-! DEFINITION. The reserved selectors (R40). A refused step changes no stored bit, returns nothing and sets the
mark; the run goes on after it (program P4 of 95_test_vectors.md; DEDUCED, log 5). -/

namespace Sys2Proof.Machine

/-- Selector 0x0D (R40): the step is refused. -/
def execReserved0D (s : State) : Host.Outcome State Fault Refusal :=
  .next s.refuse

/-- Selector 0x0E (R40): the step is refused. -/
def execReserved0E (s : State) : Host.Outcome State Fault Refusal :=
  .next s.refuse

/-- Selector 0x0F (R40): the step is refused. -/
def execReserved0F (s : State) : Host.Outcome State Fault Refusal :=
  .next s.refuse

/-- Selector 0x1D (R40): the step is refused. -/
def execReserved1D (s : State) : Host.Outcome State Fault Refusal :=
  .next s.refuse

/-- Selector 0x1E (R40): the step is refused. -/
def execReserved1E (s : State) : Host.Outcome State Fault Refusal :=
  .next s.refuse

/-- Selector 0x1F (R40): the step is refused. -/
def execReserved1F (s : State) : Host.Outcome State Fault Refusal :=
  .next s.refuse

end Sys2Proof.Machine
end

