-- ==== Sys2Proof/Machine/Singles.lean ====
section
/-! DEFINITION. The single-register operations (R60 to R73). -/

namespace Sys2Proof.Machine

/-- GET_A (R60): the result is register a, zero-extended on `dout`; no side effect. -/
def execGetA (s : State) : Host.Outcome State Fault Refusal :=
  .next (s.answer (placeByte (s.regs.read .a)))

/-- GET_B (R61): the result is register b, zero-extended on `dout`; no side effect. -/
def execGetB (s : State) : Host.Outcome State Fault Refusal :=
  .next (s.answer (placeByte (s.regs.read .b)))

/-- GET_C (R62): the result is register c, zero-extended on `dout`; no side effect. -/
def execGetC (s : State) : Host.Outcome State Fault Refusal :=
  .next (s.answer (placeByte (s.regs.read .c)))

/-- GET_D (R63): the result is register d, zero-extended on `dout`; no side effect. -/
def execGetD (s : State) : Host.Outcome State Fault Refusal :=
  .next (s.answer (placeByte (s.regs.read .d)))

/-- GET_E (R64): the result is register e, zero-extended on `dout`; no side effect. -/
def execGetE (s : State) : Host.Outcome State Fault Refusal :=
  .next (s.answer (placeByte (s.regs.read .e)))

/-- GET_H (R65): the result is register h, zero-extended on `dout`; no side effect. -/
def execGetH (s : State) : Host.Outcome State Fault Refusal :=
  .next (s.answer (placeByte (s.regs.read .h)))

/-- GET_L (R66): the result is register l, zero-extended on `dout`; no side effect. -/
def execGetL (s : State) : Host.Outcome State Fault Refusal :=
  .next (s.answer (placeByte (s.regs.read .l)))

/-- SET_A v (R67): register a takes v; no flag and no other register changes. -/
def execSetA (v : Byte) (s : State) : Host.Outcome State Fault Refusal :=
  .next (s.store (s.regs.write .a v))

/-- SET_B v (R68): register b takes v; no flag and no other register changes. -/
def execSetB (v : Byte) (s : State) : Host.Outcome State Fault Refusal :=
  .next (s.store (s.regs.write .b v))

/-- SET_C v (R69): register c takes v; no flag and no other register changes. -/
def execSetC (v : Byte) (s : State) : Host.Outcome State Fault Refusal :=
  .next (s.store (s.regs.write .c v))

/-- SET_D v (R70): register d takes v; no flag and no other register changes. -/
def execSetD (v : Byte) (s : State) : Host.Outcome State Fault Refusal :=
  .next (s.store (s.regs.write .d v))

/-- SET_E v (R71): register e takes v; no flag and no other register changes. -/
def execSetE (v : Byte) (s : State) : Host.Outcome State Fault Refusal :=
  .next (s.store (s.regs.write .e v))

/-- SET_H v (R72): register h takes v; no flag and no other register changes. -/
def execSetH (v : Byte) (s : State) : Host.Outcome State Fault Refusal :=
  .next (s.store (s.regs.write .h v))

/-- SET_L v (R73): register l takes v; no flag and no other register changes. -/
def execSetL (v : Byte) (s : State) : Host.Outcome State Fault Refusal :=
  .next (s.store (s.regs.write .l v))

end Sys2Proof.Machine
end

