-- ==== Sys2Proof/Machine/Dispatch.lean ====
section
/-! DEFINITION. One arm per instruction: a direct call of its meaning. -/

namespace Sys2Proof.Machine

/-- What an instruction does. -/
def exec (i : Instr) (s : State) : Host.Outcome State Fault Refusal :=
  match i with
  | .getB => Sys2Proof.Machine.execGetB s
  | .getC => Sys2Proof.Machine.execGetC s
  | .getD => Sys2Proof.Machine.execGetD s
  | .getE => Sys2Proof.Machine.execGetE s
  | .getH => Sys2Proof.Machine.execGetH s
  | .getL => Sys2Proof.Machine.execGetL s
  | .getF => Sys2Proof.Machine.execGetF s
  | .getA => Sys2Proof.Machine.execGetA s
  | .getBC => Sys2Proof.Machine.execGetBC s
  | .getDE => Sys2Proof.Machine.execGetDE s
  | .getHL => Sys2Proof.Machine.execGetHL s
  | .getAF => Sys2Proof.Machine.execGetAF s
  | .flagsEncode fv => Sys2Proof.Machine.execFlagsEncode fv s
  | .setB v => Sys2Proof.Machine.execSetB v s
  | .setC v => Sys2Proof.Machine.execSetC v s
  | .setD v => Sys2Proof.Machine.execSetD v s
  | .setE v => Sys2Proof.Machine.execSetE v s
  | .setH v => Sys2Proof.Machine.execSetH v s
  | .setL v => Sys2Proof.Machine.execSetL v s
  | .setF fv => Sys2Proof.Machine.execSetF fv s
  | .setA v => Sys2Proof.Machine.execSetA v s
  | .setBC v => Sys2Proof.Machine.execSetBC v s
  | .setDE v => Sys2Proof.Machine.execSetDE v s
  | .setHL v => Sys2Proof.Machine.execSetHL v s
  | .setAF v => Sys2Proof.Machine.execSetAF v s
  | .flagsDecode b => Sys2Proof.Machine.execFlagsDecode b s
  | .reserved0D => Sys2Proof.Machine.execReserved0D s
  | .reserved0E => Sys2Proof.Machine.execReserved0E s
  | .reserved0F => Sys2Proof.Machine.execReserved0F s
  | .reserved1D => Sys2Proof.Machine.execReserved1D s
  | .reserved1E => Sys2Proof.Machine.execReserved1E s
  | .reserved1F => Sys2Proof.Machine.execReserved1F s

end Sys2Proof.Machine
end

