-- ==== Sys2Proof/Machine/Step.lean ====
section
/-! DEFINITION. One step: the oldest request issued is decoded and run (R10, R30, R85). -/

namespace Sys2Proof.Machine

/-- One operation per step. Where the caller has issued nothing, the block keeps its state (DESIGN CHOICE,
log 3). -/
def step (s : State) : Host.Outcome State Fault Refusal :=
  match s.fetch with
  | none => .next s
  | some (r, s') => exec (decode r) s'

/-- The request of the word, issued so that the very next step runs it (log 2). A word that is no request
leaves the state as it is: no value of the ports stands for it. -/
def State.withFetchWord (s : State) (nbits w : Nat) : State :=
  match Request.ofTableWord nbits w with
  | .ok r => s.issueFirst r
  | .error _ => s

end Sys2Proof.Machine
end

