-- ==== Sys2Proof/Machine/Assembler.lean ====
section
/-! DEFINITION. The textual form of an operation (R41): its mnemonic, followed for a SET_*, ENCODE or DECODE
by one literal. Text is a list of characters. What R41 leaves open is log 8. -/

namespace Sys2Proof

/-- The mnemonic, as the opcode table spells it (R41). -/
def Instr.mnemonic : Instr → String
  | .getB => "GET_B"
  | .getC => "GET_C"
  | .getD => "GET_D"
  | .getE => "GET_E"
  | .getH => "GET_H"
  | .getL => "GET_L"
  | .getF => "GET_F"
  | .getA => "GET_A"
  | .getBC => "GET_BC"
  | .getDE => "GET_DE"
  | .getHL => "GET_HL"
  | .getAF => "GET_AF"
  | .flagsEncode _ => "ENCODE"
  | .setB _ => "SET_B"
  | .setC _ => "SET_C"
  | .setD _ => "SET_D"
  | .setE _ => "SET_E"
  | .setH _ => "SET_H"
  | .setL _ => "SET_L"
  | .setF _ => "SET_F"
  | .setA _ => "SET_A"
  | .setBC _ => "SET_BC"
  | .setDE _ => "SET_DE"
  | .setHL _ => "SET_HL"
  | .setAF _ => "SET_AF"
  | .flagsDecode _ => "DECODE"
  | .reserved0D => "RESERVED_0D"
  | .reserved0E => "RESERVED_0E"
  | .reserved0F => "RESERVED_0F"
  | .reserved1D => "RESERVED_1D"
  | .reserved1E => "RESERVED_1E"
  | .reserved1F => "RESERVED_1F"

end Sys2Proof

namespace Sys2Proof.Machine

/-- The hexadecimal digit of a number below 16. -/
def hexDigit (n : Nat) : Char :=
  ['0', '1', '2', '3', '4', '5', '6', '7', '8', '9', 'A', 'B', 'C', 'D', 'E', 'F'].getD n '0'

/-- An 8-bit operand as ` 0x` and two digits. -/
def byteLiteral (v : Byte) : List Char :=
  [' ', '0', 'x', hexDigit (v.toNat / 16), hexDigit (v.toNat % 16)]

/-- A 16-bit operand as ` 0x` and four digits. -/
def wordLiteral (v : Word16) : List Char :=
  [' ', '0', 'x', hexDigit (v.toNat / 4096), hexDigit (v.toNat / 256 % 16),
   hexDigit (v.toNat / 16 % 16), hexDigit (v.toNat % 16)]

/-- A flag vector as ` 0b` and four digits. -/
def binaryLiteral (fv : FlagVector) : List Char :=
  [' ', '0', 'b', hexDigit (fv.toNat / 8), hexDigit (fv.toNat / 4 % 2),
   hexDigit (fv.toNat / 2 % 2), hexDigit (fv.toNat % 2)]

/-- The blank and the operand's literal, or nothing where the operation takes none (R37, R41). -/
def operandText : Instr → List Char
  | .flagsEncode fv => binaryLiteral fv
  | .setB v => byteLiteral v
  | .setC v => byteLiteral v
  | .setD v => byteLiteral v
  | .setE v => byteLiteral v
  | .setH v => byteLiteral v
  | .setL v => byteLiteral v
  | .setF fv => binaryLiteral fv
  | .setA v => byteLiteral v
  | .setBC v => wordLiteral v
  | .setDE v => wordLiteral v
  | .setHL v => wordLiteral v
  | .setAF v => wordLiteral v
  | .flagsDecode v => byteLiteral v
  | .getB | .getC | .getD | .getE | .getH | .getL
  | .getF | .getA | .getBC | .getDE | .getHL | .getAF
  | .reserved0D | .reserved0E | .reserved0F | .reserved1D | .reserved1E | .reserved1F => []

/-- An operation as text (R41). -/
def printInstr (i : Instr) : List Char := i.mnemonic.toList ++ operandText i

/-- The value of a digit; capital and small letters are both read (log 8). -/
def digitValue (c : Char) : Option Nat :=
  if '0'.toNat ≤ c.toNat ∧ c.toNat ≤ '9'.toNat then some (c.toNat - '0'.toNat)
  else if 'A'.toNat ≤ c.toNat ∧ c.toNat ≤ 'F'.toNat then some (c.toNat - 'A'.toNat + 10)
  else if 'a'.toNat ≤ c.toNat ∧ c.toNat ≤ 'f'.toNat then some (c.toNat - 'a'.toNat + 10)
  else none

/-- Digits of a base read on from `acc`; `none` at a character that is no digit of the base. -/
def readDigits (base : Nat) : Nat → List Char → Option Nat
  | acc, [] => some acc
  | acc, c :: cs =>
    match digitValue c with
    | some d => if d < base then readDigits base (acc * base + d) cs else none
    | none => none

/-- A number of at least one digit. -/
def readNumber (base : Nat) : List Char → Option Nat
  | [] => none
  | c :: cs => readDigits base 0 (c :: cs)

/-- A hexadecimal `0x..`, binary `0b..` or decimal literal (R41). -/
def readLiteral : List Char → Option Nat
  | '0' :: 'x' :: ds => readNumber 16 ds
  | '0' :: 'b' :: ds => readNumber 2 ds
  | ds => readNumber 10 ds

/-- The text before the first blank, and the text after it where there is a blank (log 8). -/
def splitBlank : List Char → List Char × Option (List Char)
  | [] => ([], none)
  | c :: cs =>
    if c = ' ' then ([], some cs)
    else ((c :: (splitBlank cs).1), (splitBlank cs).2)

/-- The row of a mnemonic that names an operation: a reserved row has no text form (R41). -/
def rowOfMnemonic (m : List Char) : Option OpcodeRow :=
  opcodeTable.find? fun row => !row.reserved && row.mnemonic.toList == m

/-- A row with its operand: none where the operation takes none, else one that fits its width (R37, R41). -/
def assembleRow (row : OpcodeRow) : Option Nat → Option Request
  | none => if row.operandBits = 0 then some ⟨row.op, 0#16⟩ else none
  | some n =>
    if row.operandBits ≠ 0 ∧ n < 2 ^ row.operandBits then some ⟨row.op, BitVec.ofNat 16 n⟩ else none

/-- The request a line of text stands for; `none` where it is no operation's text (R41). -/
def assemble (text : List Char) : Option Request :=
  match rowOfMnemonic (splitBlank text).1, (splitBlank text).2 with
  | some row, none => assembleRow row none
  | some row, some lit =>
    match readLiteral lit with
    | some n => assembleRow row (some n)
    | none => none
  | none, _ => none

end Sys2Proof.Machine
end

