-- ==== Sys2Proof/Safety.lean ====
section
/-! DEFINITION. What counts as a safe run, and the terms statements use: which stored fields the rules name
for each operation (R14), and the block seen as four 16-bit pairs (R19, R20). -/

namespace Sys2Proof.Safety

open Sys2Proof.Machine

/-- No step of the run so far was refused (R40). -/
def NeverRefused (s : State) : Prop := s.refusalMark = false

/-- Every operation issued and not yet run names an operation of the block (R40). -/
def OnlyOperationsIssued (s : State) : Prop := ∀ r ∈ s.input, (decode r).wellFormed = true

/-- The invariant of a safe run: nothing was refused, and nothing issued will be. -/
def SafeRun (s : State) : Prop := NeverRefused s ∧ OnlyOperationsIssued s

/-- The value an operation's rule writes to a single register, if it names that register (R53 to R56, R67 to
R73). -/
def registerWrite : Instr → Reg8 → Option Byte
  | .setA v, .a | .setB v, .b | .setC v, .c | .setD v, .d | .setE v, .e | .setH v, .h | .setL v, .l => some v
  | .setAF v, .a | .setBC v, .b | .setDE v, .d | .setHL v, .h => some (hiByte v)
  | .setBC v, .c | .setDE v, .e | .setHL v, .l => some (loByte v)
  | _, _ => none

/-- The flags an operation's rule writes, if it names `f` (R16, R53, R75). -/
def flagsWrite : Instr → Option Flags
  | .setAF v => some (decodeFlags (loByte v))
  | .setF fv => some (flagsOfVector fv)
  | _ => none

/-- The last value a sequence of operations writes to a register, if any does. -/
def lastRegisterWrite (r : Reg8) : List Instr → Option Byte
  | [] => none
  | i :: is => (lastRegisterWrite r is).or (registerWrite i r)

/-- The last flags a sequence of operations writes, if any does. -/
def lastFlagsWrite : List Instr → Option Flags
  | [] => none
  | i :: is => (lastFlagsWrite is).or (flagsWrite i)

/-- The stored state a sequence of operations leaves: each field's last write, else its old content. -/
def storedAfter (is : List Instr) (rf : RegisterFile) : RegisterFile :=
  { a := (lastRegisterWrite .a is).getD rf.a
    b := (lastRegisterWrite .b is).getD rf.b
    c := (lastRegisterWrite .c is).getD rf.c
    d := (lastRegisterWrite .d is).getD rf.d
    e := (lastRegisterWrite .e is).getD rf.e
    h := (lastRegisterWrite .h is).getD rf.h
    l := (lastRegisterWrite .l is).getD rf.l
    f := (lastFlagsWrite is).getD rf.f }

/-- The stored fields an operation's rule reads: registers, and whether it reads `f` (R49 to R52, R60 to R66,
R74). -/
def registersRead : Instr → List Reg8
  | .getA | .getAF => [.a]
  | .getB => [.b]
  | .getC => [.c]
  | .getD => [.d]
  | .getE => [.e]
  | .getH => [.h]
  | .getL => [.l]
  | .getBC => [.b, .c]
  | .getDE => [.d, .e]
  | .getHL => [.h, .l]
  | _ => []

/-- Whether an operation's rule reads `f` (R49, R74). -/
def readsFlags : Instr → Bool
  | .getAF | .getF => true
  | _ => false

/-- The bits of `din` a selector's operation uses, as a mask (R37). -/
def operandMask (op : Selector) : Word16 :=
  if op ∈ [0x10#5, 0x11#5, 0x12#5, 0x13#5, 0x14#5, 0x15#5, 0x17#5, 0x1C#5] then 0x00FF#16
  else if op ∈ [0x18#5, 0x19#5, 0x1A#5, 0x1B#5] then 0xFFFF#16
  else if op ∈ [0x0C#5, 0x16#5] then 0x000F#16
  else 0x0000#16

/-- The reserved selectors (R40). -/
def reservedSelectors : List Selector := [0x0D#5, 0x0E#5, 0x0F#5, 0x1D#5, 0x1E#5, 0x1F#5]

/-- GET_P of a pair. -/
def getPair : Pair → Instr
  | .af => .getAF
  | .bc => .getBC
  | .de => .getDE
  | .hl => .getHL

/-- SET_P v of a pair. -/
def setPair : Pair → Word16 → Instr
  | .af, v => .setAF v
  | .bc, v => .setBC v
  | .de, v => .setDE v
  | .hl, v => .setHL v

/-- A second design of the same block: four 16-bit words, the flags in bits 7:4 of the first. -/
structure PairFile where
  af : Word16
  bc : Word16
  de : Word16
  hl : Word16
  deriving DecidableEq, Repr

/-- The block's stored state as its four pair views (R19). -/
def pairsOf (rf : RegisterFile) : PairFile :=
  { af := rf.readPair .af, bc := rf.readPair .bc, de := rf.readPair .de, hl := rf.readPair .hl }

/-- `w` with bits 15:8 replaced by `v`. -/
def withHigh (w : Word16) (v : Byte) : Word16 := (w &&& 0x00FF#16) ||| v.setWidth 16 <<< 8

/-- `w` with bits 7:0 replaced by `v`. -/
def withLow (w : Word16) (v : Byte) : Word16 := (w &&& 0xFF00#16) ||| v.setWidth 16

/-- An operation on the second design, by masks and shifts of the 16-bit words only: what it stores. -/
def pairStore : Instr → PairFile → PairFile
  | .setA v, p => { p with af := withHigh p.af v }
  | .setF fv, p => { p with af := (p.af &&& 0xFF00#16) ||| fv.setWidth 16 <<< 4 }
  | .setB v, p => { p with bc := withHigh p.bc v }
  | .setC v, p => { p with bc := withLow p.bc v }
  | .setD v, p => { p with de := withHigh p.de v }
  | .setE v, p => { p with de := withLow p.de v }
  | .setH v, p => { p with hl := withHigh p.hl v }
  | .setL v, p => { p with hl := withLow p.hl v }
  | .setAF v, p => { p with af := v &&& 0xFFF0#16 }
  | .setBC v, p => { p with bc := v }
  | .setDE v, p => { p with de := v }
  | .setHL v, p => { p with hl := v }
  | _, p => p

/-- An operation on the second design: what it returns. -/
def pairResult : Instr → PairFile → Option Word16
  | .getA, p => some (p.af >>> 8)
  | .getF, p => some (p.af >>> 4 &&& 0x000F#16)
  | .getB, p => some (p.bc >>> 8)
  | .getC, p => some (p.bc &&& 0x00FF#16)
  | .getD, p => some (p.de >>> 8)
  | .getE, p => some (p.de &&& 0x00FF#16)
  | .getH, p => some (p.hl >>> 8)
  | .getL, p => some (p.hl &&& 0x00FF#16)
  | .getAF, p => some p.af
  | .getBC, p => some p.bc
  | .getDE, p => some p.de
  | .getHL, p => some p.hl
  | .flagsEncode fv, _ => some (fv.setWidth 16 <<< 4)
  | .flagsDecode b, _ => some (b.setWidth 16 >>> 4)
  | _, _ => none

/-- The words of the second design after a sequence of operations, the first in the list run first. -/
def pairsAfterRun : List Instr → PairFile → PairFile
  | [], p => p
  | i :: is, p => pairsAfterRun is (pairStore i p)

end Sys2Proof.Safety
end

