-- ==== Sys2Proof/Certificates/Slice0/Obligations.lean ====
section
/-! DEFINITION. The statements, each from the rules its docstring names. Where one rests on a choice of the
model, its docstring names the log entry. -/

open Sys2Proof Sys2Proof.Machine Sys2Proof.Safety

/-- O1 (formalises R35, R36). For every din, the 16 selectors with K = 0 decode to GET_r and SET_r of b, c, d, e,
h, l, f, a in that order, and the 16 with K = 1 to GET_P and SET_P of BC, DE, HL, AF, to ENCODE and DECODE,
and to the six reserved selectors; a carried operand is the low 4, 8 or 16 bits of din. -/
def Obligations.SelectorTableNamesEveryOperation : Prop :=
  ∀ din : Word16,
    decode ⟨0x00#5, din⟩ = .getB ∧
    decode ⟨0x01#5, din⟩ = .getC ∧
    decode ⟨0x02#5, din⟩ = .getD ∧
    decode ⟨0x03#5, din⟩ = .getE ∧
    decode ⟨0x04#5, din⟩ = .getH ∧
    decode ⟨0x05#5, din⟩ = .getL ∧
    decode ⟨0x06#5, din⟩ = .getF ∧
    decode ⟨0x07#5, din⟩ = .getA ∧
    decode ⟨0x08#5, din⟩ = .getBC ∧
    decode ⟨0x09#5, din⟩ = .getDE ∧
    decode ⟨0x0A#5, din⟩ = .getHL ∧
    decode ⟨0x0B#5, din⟩ = .getAF ∧
    decode ⟨0x0C#5, din⟩ = .flagsEncode (din.extractLsb' 0 4) ∧
    decode ⟨0x0D#5, din⟩ = .reserved0D ∧
    decode ⟨0x0E#5, din⟩ = .reserved0E ∧
    decode ⟨0x0F#5, din⟩ = .reserved0F ∧
    decode ⟨0x10#5, din⟩ = .setB (din.extractLsb' 0 8) ∧
    decode ⟨0x11#5, din⟩ = .setC (din.extractLsb' 0 8) ∧
    decode ⟨0x12#5, din⟩ = .setD (din.extractLsb' 0 8) ∧
    decode ⟨0x13#5, din⟩ = .setE (din.extractLsb' 0 8) ∧
    decode ⟨0x14#5, din⟩ = .setH (din.extractLsb' 0 8) ∧
    decode ⟨0x15#5, din⟩ = .setL (din.extractLsb' 0 8) ∧
    decode ⟨0x16#5, din⟩ = .setF (din.extractLsb' 0 4) ∧
    decode ⟨0x17#5, din⟩ = .setA (din.extractLsb' 0 8) ∧
    decode ⟨0x18#5, din⟩ = .setBC din ∧
    decode ⟨0x19#5, din⟩ = .setDE din ∧
    decode ⟨0x1A#5, din⟩ = .setHL din ∧
    decode ⟨0x1B#5, din⟩ = .setAF din ∧
    decode ⟨0x1C#5, din⟩ = .flagsDecode (din.extractLsb' 0 8) ∧
    decode ⟨0x1D#5, din⟩ = .reserved1D ∧
    decode ⟨0x1E#5, din⟩ = .reserved1E ∧
    decode ⟨0x1F#5, din⟩ = .reserved1F

/-- O2 (derived from 30_encoding.md, operation selector format, opcode_table.json). An instruction's selector
determines its mnemonic and its mnemonic the selector; a request names no operation exactly where its selector
is one of the six reserved values; and the selector bit W (bit 4) is 0 exactly for the reads, ENCODE and the
reserved values below 16. -/
def Obligations.EveryOperationHasOneSelector : Prop :=
  (∀ i j : Instr, (encode i).op = (encode j).op ↔ i.mnemonic = j.mnemonic) ∧
  (∀ r : Request, (decode r).wellFormed = false ↔ r.op ∈ reservedSelectors) ∧
  (∀ r : Request, r.op.getLsbD 4 = false ↔
    ∃ row ∈ readRows, row.mnemonic = (decode r).mnemonic ∧ row.op = r.op)

/-- O3 (derived from 30_encoding.md, operation selector format, 30_encoding.md, operand and result assembly). For
every instruction, the 26 operations with every operand value and the six reserved selectors alike, decode
(encode i) = i. -/
def Obligations.DecodeEncodeRoundTrip : Prop :=
  ∀ i : Instr, decode (encode i) = i

/-- O4 (formalises R37). Re-encoding a decoded request keeps its selector and exactly the bits of din that the
operand table names (din[7:0] for the 8-bit SET_* and DECODE, din[15:0] for the pair SET_*, din[3:0] for SET_F
and ENCODE, none for a GET_*); and two requests with one selector whose din agree on those bits make the same
step from every state. -/
def Obligations.UnusedOperandBitsHaveNoEffect : Prop :=
  (∀ r : Request, encode (decode r) = ⟨r.op, r.din &&& operandMask r.op⟩) ∧
  (∀ (s : State) (op : Selector) (din din' : Word16) (rest : List Request),
    din &&& operandMask op = din' &&& operandMask op →
      step { s with input := ⟨op, din⟩ :: rest } = step { s with input := ⟨op, din'⟩ :: rest })

/-- O5 (derived from opcode_table.json, 30_encoding.md, operation selector format). One word of each family (GET_A
0x07, SET_L 0x15, GET_AF 0x0B, SET_BC 0x18, ENCODE 0x0C, DECODE 0x1C, GET_F 0x06, SET_F 0x16, reserved 0x1F),
and words with operand bytes, decode as the tables say. The byte layout of the operand is the model's choice
(log 2). -/
def Obligations.SampleWordsDecodeAsTheirRows : Prop :=
  decodeTableWord 8 0x07 = some .getA ∧ decodeTableWord 8 0x15 = some (.setL 0x00#8) ∧
  decodeTableWord 8 0x0B = some .getAF ∧ decodeTableWord 24 0xABCD18 = some (.setBC 0xABCD#16) ∧
  decodeTableWord 24 0xFFFA0C = some (.flagsEncode 0xA#4) ∧ decodeTableWord 24 0x12A51C = some (.flagsDecode 0xA5#8) ∧
  decodeTableWord 8 0x06 = some .getF ∧ decodeTableWord 16 0x0516 = some (.setF 0x5#4) ∧
  decodeTableWord 8 0x1F = some .reserved1F ∧ decodeTableWord 8 0x20 = none

/-- O6 (derived from 30_encoding.md, assembler syntax). For every instruction that names an operation, the
assembler reads the printed text (mnemonic, then a hexadecimal or binary literal for a SET_*, ENCODE or
DECODE) as exactly the encoded request. Blank and digit conventions are the model's choice (log 8). -/
def Obligations.PrintedOperationAssemblesToItsRequest : Prop :=
  ∀ i : Instr, i.wellFormed = true → assemble (printInstr i) = some (encode i)

/-- O7 (derived from 30_encoding.md, assembler syntax). If any text assembles to a request, the request names an
operation, not a reserved selector, and no bit of its din stands outside the operand bits of that operation.
What the assembler accepts beyond the rule's words is the model's choice (log 8). -/
def Obligations.AssembledTextNamesAnOperationWithAFittingOperand : Prop :=
  ∀ (text : List Char) (r : Request), assemble text = some r →
    (decode r).wellFormed = true ∧ r.din &&& operandMask r.op = r.din

/-- O8 (formalises R43). For every flags value, bit 7 of encode is zero, bit 6 subtraction, bit 5 half_carry, bit
4 carry and bits 3 to 0 are 0; and for every state, ENCODE fv answers a next state whose result is the byte
for the flags (fv[3], fv[2], fv[1], fv[0]), zero-extended, with the stored flags and everything else as
before; selector 0x0C with any din is ENCODE of din[3:0]. -/
def Obligations.EncodePacksTheFourFlags : Prop :=
  (∀ fl : Flags,
    (encodeFlags fl).getLsbD 7 = fl.zero ∧ (encodeFlags fl).getLsbD 6 = fl.subtraction ∧
    (encodeFlags fl).getLsbD 5 = fl.halfCarry ∧ (encodeFlags fl).getLsbD 4 = fl.carry ∧
    (encodeFlags fl).getLsbD 3 = false ∧ (encodeFlags fl).getLsbD 2 = false ∧
    (encodeFlags fl).getLsbD 1 = false ∧ (encodeFlags fl).getLsbD 0 = false) ∧
  (∀ (fv : FlagVector) (s : State),
    exec (.flagsEncode fv) s = .next { s with result := some ((encodeFlags
      ⟨fv.getLsbD 3, fv.getLsbD 2, fv.getLsbD 1, fv.getLsbD 0⟩).setWidth 16) }) ∧
  (∀ din : Word16, decode ⟨0x0C#5, din⟩ = .flagsEncode (din.extractLsb' 0 4))

/-- O9 (formalises R44, R48). For every byte, zero, subtraction, half_carry and carry are true exactly where the
byte AND 0x80, 0x40, 0x20, 0x10 is nonzero; and for every state, DECODE b answers a next state whose result is
{zero, subtraction, half_carry, carry} of the byte, zero-extended, with the stored flags and everything else
as before; selector 0x1C with any din is DECODE of din[7:0]. -/
def Obligations.DecodeTestsEachFlagBitForNonzero : Prop :=
  (∀ b : Byte,
    ((decodeFlags b).zero = true ↔ b &&& 0x80#8 ≠ 0x00#8) ∧
    ((decodeFlags b).subtraction = true ↔ b &&& 0x40#8 ≠ 0x00#8) ∧
    ((decodeFlags b).halfCarry = true ↔ b &&& 0x20#8 ≠ 0x00#8) ∧
    ((decodeFlags b).carry = true ↔ b &&& 0x10#8 ≠ 0x00#8)) ∧
  (∀ (b : Byte) (s : State), ∃ t, exec (.flagsDecode b) s = .next t ∧
    (∃ v, t = { s with result := some v } ∧
      v.getLsbD 3 = (decodeFlags b).zero ∧ v.getLsbD 2 = (decodeFlags b).subtraction ∧
      v.getLsbD 1 = (decodeFlags b).halfCarry ∧ v.getLsbD 0 = (decodeFlags b).carry ∧ v.toNat < 16)) ∧
  (∀ din : Word16, decode ⟨0x1C#5, din⟩ = .flagsDecode (din.extractLsb' 0 8))

/-- O10 (formalises R45). For every flags value, decoding its packed byte gives it back. -/
def Obligations.FlagsRoundTripThroughTheByte : Prop :=
  ∀ fl : Flags, decodeFlags (encodeFlags fl) = fl

/-- O11 (formalises R46). For every flags value, bits 3:0 of its packed byte are zero. -/
def Obligations.PackedByteLowNibbleIsZero : Prop :=
  ∀ fl : Flags, encodeFlags fl &&& 0x0F#8 = 0x00#8

/-- O12 (derived from 40_flags_codec.md, reverse composition). For every byte, decoding and encoding it keeps bits
7:4 and clears bits 3:0; and two bytes decode alike exactly where their bits 7:4 agree. (The spec marks this
law as its own inference.) -/
def Obligations.ByteRoundTripLosesOnlyTheLowNibble : Prop :=
  (∀ b : Byte, encodeFlags (decodeFlags b) = b &&& 0xF0#8) ∧
  (∀ b b' : Byte, decodeFlags b = decodeFlags b' ↔ b &&& 0xF0#8 = b' &&& 0xF0#8)

/-- O13 (derived from 30_encoding.md, the flag vector, 92_eei_decisions.md D8). For every flags value, its vector
has zero in bit 3, subtraction in 2, half_carry in 1, carry in 0; it is the packed byte shifted right by 4,
and the packed byte is the vector shifted left by 4; and every vector is that of the flags it stands for. (The
shift laws are marked by the spec as its own inference.) -/
def Obligations.FlagVectorIsTheHighNibbleOfThePackedByte : Prop :=
  (∀ fl : Flags,
    (flagsToVector fl).getLsbD 3 = fl.zero ∧ (flagsToVector fl).getLsbD 2 = fl.subtraction ∧
    (flagsToVector fl).getLsbD 1 = fl.halfCarry ∧ (flagsToVector fl).getLsbD 0 = fl.carry ∧
    (flagsToVector fl).setWidth 8 = encodeFlags fl >>> 4 ∧
    encodeFlags fl = (flagsToVector fl).setWidth 8 <<< 4 ∧ flagsOfVector (flagsToVector fl) = fl) ∧
  (∀ fv : FlagVector, flagsToVector (flagsOfVector fv) = fv)

/-- O14 (formalises R49, R50, R51, R52). From every state, GET_P answers a next state whose result is (zext_16(Hi)
<< 8) | zext_16(Lo), Lo being the packed flags byte for AF, with every register, flag and other part of the
state as before; bits 3:0 of AF are 0; selectors 0x0B, 0x08, 0x09, 0x0A are these operations whatever din is. -/
def Obligations.PairReadsReturnBothHalvesHighByteFirst : Prop :=
  ∀ (s : State) (din : Word16),
    decode ⟨0x0B#5, din⟩ = .getAF ∧ decode ⟨0x08#5, din⟩ = .getBC ∧
    decode ⟨0x09#5, din⟩ = .getDE ∧ decode ⟨0x0A#5, din⟩ = .getHL ∧
    encodeFlags s.regs.f &&& 0x0F#8 = 0x00#8 ∧
    exec .getAF s =
      .next { s with result := some (s.regs.a.setWidth 16 <<< 8 ||| (encodeFlags s.regs.f).setWidth 16) } ∧
    exec .getBC s = .next { s with result := some (s.regs.b.setWidth 16 <<< 8 ||| s.regs.c.setWidth 16) } ∧
    exec .getDE s = .next { s with result := some (s.regs.d.setWidth 16 <<< 8 ||| s.regs.e.setWidth 16) } ∧
    exec .getHL s = .next { s with result := some (s.regs.h.setWidth 16 <<< 8 ||| s.regs.l.setWidth 16) }

/-- O15 (formalises R54, R55, R56). From every state and for every v, SET_P v answers a next state in which the
high register of P is v[15:8], the low one v[7:0], every other register and all four flags are as before, and
there is no result; selectors 0x18, 0x19, 0x1A are these operations with v = din[15:0]. -/
def Obligations.RawPairWritesSplitTheWord : Prop :=
  ∀ (v : Word16) (s : State),
    decode ⟨0x18#5, v⟩ = .setBC v ∧ decode ⟨0x19#5, v⟩ = .setDE v ∧ decode ⟨0x1A#5, v⟩ = .setHL v ∧
    exec (.setBC v) s = .next { s with
      regs := { s.regs with b := (v >>> 8).setWidth 8, c := (v &&& 0x00FF#16).setWidth 8 }, result := none } ∧
    exec (.setDE v) s = .next { s with
      regs := { s.regs with d := (v >>> 8).setWidth 8, e := (v &&& 0x00FF#16).setWidth 8 }, result := none } ∧
    exec (.setHL v) s = .next { s with
      regs := { s.regs with h := (v >>> 8).setWidth 8, l := (v &&& 0x00FF#16).setWidth 8 }, result := none }

/-- O16 (formalises R53). From every state and for every v, SET_AF v answers a next state with a = v[15:8], zero =
v[7], subtraction = v[6], half_carry = v[5], carry = v[4], b, c, d, e, h, l as before, and no result; selector
0x1B is this operation with v = din[15:0]. -/
def Obligations.SetAFWritesAAndDecodesTheFlags : Prop :=
  ∀ (v : Word16) (s : State),
    decode ⟨0x1B#5, v⟩ = .setAF v ∧
    exec (.setAF v) s = .next { s with
      regs := { s.regs with
        a := (v >>> 8).setWidth 8
        f := { zero := v.getLsbD 7, subtraction := v.getLsbD 6, halfCarry := v.getLsbD 5, carry := v.getLsbD 4 } }
      result := none }

/-- O17 (formalises R57). From every state in which the caller has issued SET_P v and then GET_P (with any bits in
the unused din), for P one of BC, DE, HL, two steps of the machine answer a state whose result is v. -/
def Obligations.RawPairRoundTrip : Prop :=
  ∀ (p : Pair) (v unused : Word16) (rest : List Request) (s : State), p ≠ .af →
    ∃ t, core.run 2 { s with
        input := encode (setPair p v) :: ⟨(encode (getPair p)).op, unused⟩ :: rest } = .next t ∧
      t.result = some v ∧ t.input = rest

/-- O18 (derived from 41_register_pairs.md, pair contracts). From every state, running SET_AF v and then GET_AF
gives the result v AND 0xFFF0; and from every state GET_AF returns some p such that SET_AF p leaves every
register and flag as it was (this half is marked by the spec as its own inference). -/
def Obligations.AFRoundTripClearsTheLowNibble : Prop :=
  (∀ (v unused : Word16) (rest : List Request) (s : State),
    ∃ t, core.run 2 { s with input := encode (.setAF v) :: ⟨(encode .getAF).op, unused⟩ :: rest } = .next t ∧
      t.result = some (v &&& 0xFFF0#16)) ∧
  (∀ s : State, ∃ t p u, exec .getAF s = .next t ∧ t.result = some p ∧
    exec (.setAF p) t = .next u ∧ u.regs = s.regs)

/-- O19 (formalises R59). For any two different pairs P and Q and every v, one step of SET_P v answers a next
state in which P reads as v (v AND 0xFFF0 for AF) and from which GET_Q returns what GET_Q returned before the
write. -/
def Obligations.PairWriteLeavesEveryOtherPair : Prop :=
  ∀ (p q : Pair) (v : Word16) (rest : List Request) (s : State), p ≠ q →
    ∃ t before after,
      step { s with input := encode (setPair p v) :: rest } = .next t ∧
      t.regs.readPair p = (if p = .af then v &&& 0xFFF0#16 else v) ∧
      exec (getPair q) s = .next before ∧ exec (getPair q) t = .next after ∧
      before.result ≠ none ∧ after.result = before.result

/-- O20 (formalises R60, R61, R62, R63, R64, R65, R66). From every state, GET_r answers a next state whose result
is register r zero-extended to 16 bits, with every register, flag and other part of the state as before;
selectors 0x07 and 0x00 to 0x05 are these operations whatever din is. -/
def Obligations.SingleReadsReturnTheRegister : Prop :=
  ∀ (s : State) (din : Word16),
    decode ⟨0x07#5, din⟩ = .getA ∧
    decode ⟨0x00#5, din⟩ = .getB ∧
    decode ⟨0x01#5, din⟩ = .getC ∧
    decode ⟨0x02#5, din⟩ = .getD ∧
    decode ⟨0x03#5, din⟩ = .getE ∧
    decode ⟨0x04#5, din⟩ = .getH ∧
    decode ⟨0x05#5, din⟩ = .getL ∧
    exec .getA s = .next { s with result := some (s.regs.a.setWidth 16) } ∧
    exec .getB s = .next { s with result := some (s.regs.b.setWidth 16) } ∧
    exec .getC s = .next { s with result := some (s.regs.c.setWidth 16) } ∧
    exec .getD s = .next { s with result := some (s.regs.d.setWidth 16) } ∧
    exec .getE s = .next { s with result := some (s.regs.e.setWidth 16) } ∧
    exec .getH s = .next { s with result := some (s.regs.h.setWidth 16) } ∧
    exec .getL s = .next { s with result := some (s.regs.l.setWidth 16) }

/-- O21 (formalises R67, R68, R69, R70, R71, R72, R73). From every state and for every 8-bit v, SET_r v answers a
next state in which register r is v, every other register and all four flags are as before, and there is no
result; selectors 0x17 and 0x10 to 0x15 are these operations with v = din[7:0]. -/
def Obligations.SingleWritesChangeOnlyTheRegister : Prop :=
  ∀ (v : Byte) (s : State) (din : Word16),
    decode ⟨0x17#5, din⟩ = .setA (din.extractLsb' 0 8) ∧
    decode ⟨0x10#5, din⟩ = .setB (din.extractLsb' 0 8) ∧
    decode ⟨0x11#5, din⟩ = .setC (din.extractLsb' 0 8) ∧
    decode ⟨0x12#5, din⟩ = .setD (din.extractLsb' 0 8) ∧
    decode ⟨0x13#5, din⟩ = .setE (din.extractLsb' 0 8) ∧
    decode ⟨0x14#5, din⟩ = .setH (din.extractLsb' 0 8) ∧
    decode ⟨0x15#5, din⟩ = .setL (din.extractLsb' 0 8) ∧
    exec (.setA v) s = .next { s with regs := { s.regs with a := v }, result := none } ∧
    exec (.setB v) s = .next { s with regs := { s.regs with b := v }, result := none } ∧
    exec (.setC v) s = .next { s with regs := { s.regs with c := v }, result := none } ∧
    exec (.setD v) s = .next { s with regs := { s.regs with d := v }, result := none } ∧
    exec (.setE v) s = .next { s with regs := { s.regs with e := v }, result := none } ∧
    exec (.setH v) s = .next { s with regs := { s.regs with h := v }, result := none } ∧
    exec (.setL v) s = .next { s with regs := { s.regs with l := v }, result := none }

/-- O22 (derived from 10_state.md, register pairs as views, 70_reset_and_hazards.md, hazards). After SET_r v the
next GET_P of the pair that holds r returns P with that half replaced by v; after SET_P w the next GET of its
high register returns w[15:8] and of its low register w[7:0]; after SET_AF w the next GET_F returns w[7:4];
after SET_F fv the next GET_AF returns {a, fv, 0000}; and after SET_r v the next GET_r returns v, after SET_F
fv the next GET_F returns fv. (Marked by the spec as its own inference; it also says that no write has any
latency.) -/
def Obligations.WritesAreSeenThroughTheOtherView : Prop :=
  ∀ (v : Byte) (w : Word16) (fv : FlagVector) (s : State),
    (∃ t u, exec (.setA v) s = .next t ∧ exec .getAF t = .next u ∧
      u.result = some (withHigh (s.regs.readPair .af) v)) ∧
    (∃ t u, exec (.setB v) s = .next t ∧ exec .getBC t = .next u ∧
      u.result = some (withHigh (s.regs.readPair .bc) v)) ∧
    (∃ t u, exec (.setC v) s = .next t ∧ exec .getBC t = .next u ∧
      u.result = some (withLow (s.regs.readPair .bc) v)) ∧
    (∃ t u, exec (.setD v) s = .next t ∧ exec .getDE t = .next u ∧
      u.result = some (withHigh (s.regs.readPair .de) v)) ∧
    (∃ t u, exec (.setE v) s = .next t ∧ exec .getDE t = .next u ∧
      u.result = some (withLow (s.regs.readPair .de) v)) ∧
    (∃ t u, exec (.setH v) s = .next t ∧ exec .getHL t = .next u ∧
      u.result = some (withHigh (s.regs.readPair .hl) v)) ∧
    (∃ t u, exec (.setL v) s = .next t ∧ exec .getHL t = .next u ∧
      u.result = some (withLow (s.regs.readPair .hl) v)) ∧
    (∃ t u, exec (.setAF w) s = .next t ∧ exec .getA t = .next u ∧ u.result = some (w >>> 8)) ∧
    (∃ t u, exec (.setBC w) s = .next t ∧ exec .getB t = .next u ∧ u.result = some (w >>> 8)) ∧
    (∃ t u, exec (.setBC w) s = .next t ∧ exec .getC t = .next u ∧ u.result = some (w &&& 0x00FF#16)) ∧
    (∃ t u, exec (.setDE w) s = .next t ∧ exec .getD t = .next u ∧ u.result = some (w >>> 8)) ∧
    (∃ t u, exec (.setDE w) s = .next t ∧ exec .getE t = .next u ∧ u.result = some (w &&& 0x00FF#16)) ∧
    (∃ t u, exec (.setHL w) s = .next t ∧ exec .getH t = .next u ∧ u.result = some (w >>> 8)) ∧
    (∃ t u, exec (.setHL w) s = .next t ∧ exec .getL t = .next u ∧ u.result = some (w &&& 0x00FF#16)) ∧
    (∃ t u, exec (.setF fv) s = .next t ∧ exec .getAF t = .next u ∧
      u.result = some (s.regs.a.setWidth 16 <<< 8 ||| fv.setWidth 16 <<< 4)) ∧
    (∃ t u, exec (.setAF w) s = .next t ∧ exec .getF t = .next u ∧ u.result = some (w >>> 4 &&& 0x000F#16)) ∧
    (∃ t u, exec (.setF fv) s = .next t ∧ exec .getF t = .next u ∧ u.result = some (fv.setWidth 16)) ∧
    (∃ t u, exec (.setA v) s = .next t ∧ exec .getA t = .next u ∧ u.result = some (v.setWidth 16)) ∧
    (∃ t u, exec (.setB v) s = .next t ∧ exec .getB t = .next u ∧ u.result = some (v.setWidth 16)) ∧
    (∃ t u, exec (.setC v) s = .next t ∧ exec .getC t = .next u ∧ u.result = some (v.setWidth 16)) ∧
    (∃ t u, exec (.setD v) s = .next t ∧ exec .getD t = .next u ∧ u.result = some (v.setWidth 16)) ∧
    (∃ t u, exec (.setE v) s = .next t ∧ exec .getE t = .next u ∧ u.result = some (v.setWidth 16)) ∧
    (∃ t u, exec (.setH v) s = .next t ∧ exec .getH t = .next u ∧ u.result = some (v.setWidth 16)) ∧
    (∃ t u, exec (.setL v) s = .next t ∧ exec .getL t = .next u ∧ u.result = some (v.setWidth 16))

/-- O23 (formalises R74). From every state, GET_F answers a next state that differs in the result only, and the
result has zero in bit 3, subtraction in bit 2, half_carry in bit 1, carry in bit 0 and nothing above;
selector 0x06 is GET_F whatever din is. -/
def Obligations.GetFReturnsTheStoredFlags : Prop :=
  ∀ (s : State) (din : Word16), ∃ v, exec .getF s = .next { s with result := some v } ∧
    decode ⟨0x06#5, din⟩ = .getF ∧
    v.getLsbD 3 = s.regs.f.zero ∧ v.getLsbD 2 = s.regs.f.subtraction ∧
    v.getLsbD 1 = s.regs.f.halfCarry ∧ v.getLsbD 0 = s.regs.f.carry ∧ v.toNat < 16

/-- O24 (formalises R75). From every state and for all 16 values of fv, SET_F fv answers a next state with those
four flags, every register as before, and no result; selector 0x16 is SET_F of din[3:0]. -/
def Obligations.SetFWritesAllFourFlags : Prop :=
  ∀ (fv : FlagVector) (s : State) (din : Word16),
    decode ⟨0x16#5, din⟩ = .setF (din.extractLsb' 0 4) ∧
    exec (.setF fv) s = .next { s with
      regs := { s.regs with f := ⟨fv.getLsbD 3, fv.getLsbD 2, fv.getLsbD 1, fv.getLsbD 0⟩ }, result := none }

/-- O25 (derived from 42_single_registers.md, flag operations). From every state, the result of GET_F is bits 7:4
of the result of GET_AF, and SET_F fv leaves the same registers and flags as reading p by GET_AF and then
running SET_AF ((p AND 0xFF00) OR (fv << 4)). (Marked by the spec as its own inference.) -/
def Obligations.FlagAccessEqualsTheAFSequence : Prop :=
  ∀ (fv : FlagVector) (s : State), ∃ t p u v w,
    exec .getAF s = .next t ∧ t.result = some p ∧
    exec .getF s = .next u ∧ u.result = some (p >>> 4 &&& 0x000F#16) ∧
    exec (.setAF (p &&& 0xFF00#16 ||| fv.setWidth 16 <<< 4)) t = .next v ∧
    exec (.setF fv) s = .next w ∧ v.regs = w.regs

/-- O26 (derived from 10_state.md, flags register F, 30_encoding.md, reserved, illegal and hint encodings). Every
operation other than SET_AF and SET_F, from every state, answers a next state with the four flags as before;
and whichever four booleans SET_F or SET_AF is given are stored and returned unchanged by the next GET_F and
GET_AF. (That a reserved selector answers a next state is log 5.) -/
def Obligations.OnlyAFlagWriteChangesTheFlags : Prop :=
  (∀ (i : Instr) (s : State), (∀ v, i ≠ .setAF v) → (∀ fv, i ≠ .setF fv) →
    ∃ t, exec i s = .next t ∧ t.regs.f = s.regs.f) ∧
  (∀ (fl : Flags) (a : Byte) (s : State), ∃ t u x y,
    exec (.setF (flagsToVector fl)) s = .next t ∧ t.regs.f = fl ∧
    exec (.setAF (concat a (encodeFlags fl))) s = .next u ∧ u.regs.f = fl ∧
    exec .getF t = .next x ∧ x.result = some (placeFlags (flagsToVector fl)) ∧
    exec .getAF u = .next y ∧ y.result = some (concat a (encodeFlags fl)))

/-- O27 (formalises R17). From every state GET_AF answers a result with bits 3:0 zero; and SET_AF of two values
that agree on bits 15:4 makes the same step from every state. -/
def Obligations.PackedFlagsByteHasNoStoredLowNibble : Prop :=
  (∀ s : State, ∃ t p, exec .getAF s = .next t ∧ t.result = some p ∧ p &&& 0x000F#16 = 0x0000#16) ∧
  (∀ (v v' : Word16) (s : State), v &&& 0xFFF0#16 = v' &&& 0xFFF0#16 → exec (.setAF v) s = exec (.setAF v') s)

/-- O28 (derived from 10_state.md, general registers, 30_encoding.md, reserved, illegal and hint encodings). From
every state every instruction answers a next state in which each register holds the value the instruction's
rule writes to it, or its old value where the rule names no write, and likewise the flags; and from two states
that agree on the registers (and the flags, where it reads them) that the rule reads, it returns the same
result. (That a reserved selector answers a next state is log 5.) -/
def Obligations.EachOperationTouchesAndObservesOnlyItsFields : Prop :=
  (∀ (i : Instr) (s : State), ∃ t, exec i s = .next t ∧
    (∀ r : Reg8, t.regs.read r = (registerWrite i r).getD (s.regs.read r)) ∧
    t.regs.f = (flagsWrite i).getD s.regs.f) ∧
  (∀ (i : Instr) (s s' : State), (∀ r ∈ registersRead i, s.regs.read r = s'.regs.read r) →
    (readsFlags i = true → s.regs.f = s'.regs.f) →
    ∃ t t', exec i s = .next t ∧ exec i s' = .next t' ∧ t.result = t'.result)

/-- O29 (derived from 20_memory.md, access widths and atomicity). An instruction whose selector bit W is 0, and
DECODE, leave every register and flag as before; and from every state, running any instruction a second time
answers the very state its first run answered. (Marked by the spec as its own inference; for the reserved
selectors it is log 5.) -/
def Obligations.ReadsHaveNoEffectAndOperationsAreIdempotent : Prop :=
  (∀ (i : Instr) (s : State), ((encode i).op.getLsbD 4 = false ∨ ∃ b, i = .flagsDecode b) →
    ∃ t, exec i s = .next t ∧ t.regs = s.regs) ∧
  (∀ (i : Instr) (s : State), ∃ t, exec i s = .next t ∧ exec i t = .next t)

/-- O30 (formalises R39). From every state: after GET_r dout is zext_16 of the register, after GET_P the pair,
after GET_F and DECODE zext_16 of the flag vector, after ENCODE zext_16 of the byte; after every SET_* there
is no result and dout is 0x0000. -/
def Obligations.ResultIsPlacedOnDout : Prop :=
  ∀ s : State,
    (∀ i ∈ [(Instr.getA, Reg8.a), (.getB, .b), (.getC, .c), (.getD, .d), (.getE, .e), (.getH, .h), (.getL, .l)],
      ∃ t, exec i.1 s = .next t ∧ t.dout = (s.regs.read i.2).setWidth 16) ∧
    (∀ p : Pair, ∃ t, exec (getPair p) s = .next t ∧ t.dout = s.regs.readPair p) ∧
    (∃ t, exec .getF s = .next t ∧ t.dout = (flagsToVector s.regs.f).setWidth 16) ∧
    (∀ b : Byte, ∃ t, exec (.flagsDecode b) s = .next t ∧ t.dout = (flagsToVector (decodeFlags b)).setWidth 16) ∧
    (∀ fv : FlagVector, ∃ t, exec (.flagsEncode fv) s = .next t ∧
      t.dout = (encodeFlags (flagsOfVector fv)).setWidth 16) ∧
    (∀ (v : Byte) (w : Word16) (fv : FlagVector),
      ∀ i ∈ [Instr.setA v, .setB v, .setC v, .setD v, .setE v, .setH v, .setL v, .setF fv,
          .setAF w, .setBC w, .setDE w, .setHL w],
        ∃ t, exec i s = .next t ∧ t.result = none ∧ t.dout = 0x0000#16)

/-- O31 (derived from 30_encoding.md, reserved, illegal and hint encodings, 95_test_vectors.md, program P4). For
each of the six reserved selectors and every din, one step from every state answers the state with that
request consumed, no result, the refusal mark set and every register and flag as before. That the run then
goes on, as program P4 shows, is the model's reading (log 5). -/
def Obligations.RefusedStepChangesOnlyTheMark : Prop :=
  ∀ (op : Selector) (din : Word16) (rest : List Request) (s : State), op ∈ reservedSelectors →
    step { s with input := ⟨op, din⟩ :: rest } =
      .next { s with input := rest, result := none, refusalMark := true }

/-- O32 (derived from 30_encoding.md, reserved, illegal and hint encodings, opcode_table.json). From every state,
exec of each reserved instruction answers that state with result none and the refusal mark set (log 5: the
refusal is a step). -/
def Obligations.ReservedInstructionsComplete : Prop :=
  ∀ s : State,
    ∀ i ∈ [Instr.reserved0D, .reserved0E, .reserved0F, .reserved1D, .reserved1E, .reserved1F],
      exec i s = .next { s with result := none, refusalMark := true }

/-- O33 (derived from 30_encoding.md, reserved, illegal and hint encodings, 95_test_vectors.md, program P4). For
every state and every k, running k steps answers a state whose mark is set exactly where the first state's was
or one of the first k requests issued has a reserved selector. (Running on through a reserved selector is log
5, and steps past the end of the queue are log 3.) -/
def Obligations.MarkIsSetExactlyByReservedSelectors : Prop :=
  ∀ (k : Nat) (s : State), ∃ t, core.run k s = .next t ∧
    (t.refusalMark = true ↔ s.refusalMark = true ∨ ∃ r ∈ s.input.take k, r.op ∈ reservedSelectors)

/-- O34 (derived from 60_exceptions.md, every operation is total, 30_encoding.md, reserved, illegal and hint
encodings). For every instruction with every operand, and from every state, exec answers a next state, and so
does every step. That a reserved selector answers one is log 5, and that a step with nothing issued does is
log 3. -/
def Obligations.EveryOperationIsTotal : Prop :=
  (∀ (i : Instr) (s : State), ∃ t, exec i s = .next t) ∧ (∀ s : State, ∃ t, step s = .next t)

/-- O35 (derived from 70_reset_and_hazards.md, one operation per step, 70_reset_and_hazards.md, timing). From
every state and for every k, running k steps answers a state whose queue is the first state's without its
first k requests; and where the first state has a request at place k, counted from 0, the run of k + 1 steps
is exec of that request on the state after k steps with that request removed. (The queue is log 2, a step with
nothing issued log 3, and running on through a reserved selector log 5.) -/
def Obligations.RunsConsumeOneOperationPerStep : Prop :=
  ∀ (k : Nat) (s : State), ∃ t, core.run k s = .next t ∧ t.input = s.input.drop k ∧
    ∀ r : Request, s.input[k]? = some r →
      core.run (k + 1) s = exec (decode r) { t with input := s.input.drop (k + 1) }

/-- O36 (derived from 20_memory.md, ordering and synchronisation, 10_state.md, register pairs as views). For every
state and every k, running k steps answers a state in which each register, and the flags, hold the value
written by the last of the first k operations issued whose rule writes it, through the single register or
through its pair, and the first state's value where none does. (Steps past the end of the queue are log 3, and
running on through a reserved selector is log 5.) -/
def Obligations.LastWriteIsWhatARunLeaves : Prop :=
  ∀ (k : Nat) (s : State), ∃ t, core.run k s = .next t ∧
    (∀ r : Reg8, t.regs.read r =
      (lastRegisterWrite r ((s.input.take k).map decode)).getD (s.regs.read r)) ∧
    t.regs.f = (lastFlagsWrite ((s.input.take k).map decode)).getD s.regs.f

/-- O37 (derived from 10_state.md, state the block does not hold). From two states that agree on the 60 stored
bits and on the first k requests issued, whatever is issued after those and whatever their last results and
refusal marks, k steps leave the same stored bits and, where the k-th runs an operation, return the same
result; if all that is issued agrees, what then waits agrees too. (Steps past the end of the queue are log 3,
and running on through a reserved selector is log 5.) -/
def Obligations.ResultsDependOnlyOnStoredStateAndInputs : Prop :=
  ∀ (k : Nat) (s s' : State), s.regs = s'.regs → s.input.take k = s'.input.take k →
    ∃ t t', core.run k s = .next t ∧ core.run k s' = .next t' ∧ t.regs = t'.regs ∧
      (s.input = s'.input → t.input = t'.input) ∧
      (0 < k → k ≤ s.input.length → t.result = t'.result)

/-- O38 (derived from 30_encoding.md, reserved, illegal and hint encodings, 60_exceptions.md, one outcome per
step). From every state in which no step was refused and everything issued names an operation, every step
answers a state of which both still hold. (The queue is log 2, and a step with nothing issued log 3.) -/
def Obligations.SafeRunIsKeptByEveryStep : Prop :=
  ∀ s : State, SafeRun s → ∃ t, step s = .next t ∧ SafeRun t

/-- O39 (derived from 70_reset_and_hazards.md, reset and boot). The safe-run invariant holds of State.reset, and
issuing a request that names an operation keeps it. (Empty queue and clear mark at reset are the model's
choice, log 2 and log 5.) -/
def Obligations.ResetIsASafeRun : Prop :=
  SafeRun State.reset ∧
  (∀ (s : State) (r : Request), SafeRun s → (decode r).wellFormed = true → SafeRun (s.issue r))

/-- O40 (derived from 10_state.md, register pairs as views, 41_register_pairs.md, 42_single_registers.md). Seen as
its four pair views, every instruction changes the block, and returns, as the same instruction does on a
design that stores AF, BC, DE, HL as 16-bit words and works by masks and shifts. A run of k steps leaves the
words that design has after the first k operations issued; and where there is an operation at place k, counted
from 0, step k + 1 of the run returns what that operation returns on those words. (Steps past the end of the
queue are log 3, and running on through a reserved selector is log 5.) -/
def Obligations.PairDesignSimulatesTheBlock : Prop :=
  (∀ (i : Instr) (s : State), ∃ t, exec i s = .next t ∧
    pairsOf t.regs = pairStore i (pairsOf s.regs) ∧ t.result = pairResult i (pairsOf s.regs)) ∧
  (∀ (k : Nat) (s : State), ∃ t, core.run k s = .next t ∧
    pairsOf t.regs = pairsAfterRun ((s.input.take k).map decode) (pairsOf s.regs) ∧
    ∀ r : Request, s.input[k]? = some r → ∃ u, core.run (k + 1) s = .next u ∧
      u.result = pairResult (decode r) (pairsAfterRun ((s.input.take k).map decode) (pairsOf s.regs)))

/-- O41 (derived from 10_state.md, register pairs). Two stored states are equal exactly where their four pair
views are, and each pair's view is unchanged by any change to the fields outside that pair. -/
def Obligations.PairViewsDetermineTheStoredState : Prop :=
  (∀ x y : RegisterFile, pairsOf x = pairsOf y ↔ x = y) ∧
  (∀ (p q : Pair) (v : Word16) (x : RegisterFile), q ≠ p → (x.writePair p v).readPair q = x.readPair q)

/-- O42 (derived from 10_state.md, general registers, 10_state.md, flags register F). For every target content of
the seven registers and four flags and from every state, the four operations SET_AF, SET_BC, SET_DE and
SET_HL, each of some value, run in this order to a state with exactly that content and nothing left to run; so
every 8-bit value and every flag combination is legal content. -/
def Obligations.EveryRegisterFileIsReachable : Prop :=
  ∀ (target : RegisterFile) (s : State), ∃ (af bc de hl : Word16) (t : State),
    core.run 4 { s with input := [encode (.setAF af), encode (.setBC bc), encode (.setDE de), encode (.setHL hl)] } =
      .next t ∧ t.regs = target ∧ t.input = []

/-- O43 (derived from 00_scope.md, an operation is one step, 70_reset_and_hazards.md, one operation per step).
Where the queue is r followed by rest, step is exec of decode r on the state whose queue is rest; where it is
empty, step answers the state itself. (The queue and the step with nothing issued are the model's choice, log
2 and log 3.) -/
def Obligations.StepRunsTheOldestRequest : Prop :=
  (∀ (s : State) (r : Request) (rest : List Request),
    step { s with input := r :: rest } = exec (decode r) { s with input := rest }) ∧
  (∀ s : State, s.input = [] → step s = .next s)

/-- O44 (derived from opcode_table.json, 30_encoding.md, ports). Wherever the decoder reads an instruction from a
table word, the next step after placing that word is exec of that instruction on the state as it was. (The
word form is the model's choice, log 2.) -/
def Obligations.FetchedWordIsRunNext : Prop :=
  ∀ (s : State) (nbits w : Nat) (i : Instr), decodeTableWord nbits w = some i →
    step (s.withFetchWord nbits w) = exec i s

/-- O45 (derived from 10_state.md, reset values, 70_reset_and_hazards.md, reset and boot). For every init_state,
the constructed block holds exactly it, and the first operation issued runs on it; and State.reset is the
block constructed with every register 0x00 and every flag false, which is the model's choice (log 1), with
nothing issued, returned or refused (log 2, log 4, log 5). -/
def Obligations.FirstStateIsTheSuppliedInitState : Prop :=
  (∀ (init : RegisterFile) (r : Request), (State.construct init).regs = init ∧
    step ((State.construct init).issue r) = exec (decode r) (State.construct init)) ∧
  State.reset = State.construct
    ⟨0x00#8, 0x00#8, 0x00#8, 0x00#8, 0x00#8, 0x00#8, 0x00#8, ⟨false, false, false, false⟩⟩ ∧
  State.reset.input = [] ∧ State.reset.result = none ∧ State.reset.refusalMark = false

/-- O46 (derived from 30_encoding.md, ports, opcode_table.json). For every request, reading the word of the
request gives the request; and for every instruction, the decoder reads it from the 24-bit word of its
encoding. (The word form is the model's choice, log 2.) -/
def Obligations.WordFormRoundTrip : Prop :=
  (∀ r : Request, Request.ofWord r.toWord = .ok r) ∧
  (∀ i : Instr, decodeTableWord 24 (encode i).toWord = some i)

/-- O47 (formalises R77). Every instruction that names an operation, with every operand and from every state,
answers a next state and leaves the refusal mark as it was; and a step in which such an operation is the
oldest issued does so too. No operation faults, waits or is refused. -/
def Obligations.EveryNamedOperationSucceeds : Prop :=
  (∀ (i : Instr) (s : State), i.wellFormed = true →
    ∃ t, exec i s = .next t ∧ t.refusalMark = s.refusalMark) ∧
  (∀ (r : Request) (rest : List Request) (s : State), (decode r).wellFormed = true →
    ∃ t, step { s with input := r :: rest } = .next t ∧ t.refusalMark = s.refusalMark)

/-- O48 (formalises R30). Where the caller has issued some operations, then one more, then anything, running the
first ones leaves exactly their last writes over the first state's content, whatever comes later; the next
step runs that one operation, its result is the one it gives on that content, and only the later ones remain. -/
def Obligations.EachOperationSeesExactlyTheEarlierWrites : Prop :=
  ∀ (before : List Request) (r : Request) (later : List Request) (s : State),
    (∀ x ∈ before, (decode x).wellFormed = true) → (decode r).wellFormed = true →
      ∃ t u, core.run before.length { s with input := before ++ r :: later } = .next t ∧
        t.regs = storedAfter (before.map decode) s.regs ∧ step t = .next u ∧
        u.result = pairResult (decode r) (pairsOf (storedAfter (before.map decode) s.regs)) ∧ u.input = later

/-- O49 (formalises R23). From two states that agree on the 60 stored bits, whatever their last results, refusal
marks and whatever else is issued, a step with the same operation oldest in both answers states with the same
result, the same port value and the same stored bits: there is no hidden state a caller could observe. -/
def Obligations.ResultDependsOnlyOnStoredStateAndOwnOperand : Prop :=
  ∀ (r : Request) (rest rest' : List Request) (s s' : State), (decode r).wellFormed = true → s.regs = s'.regs →
    ∃ t t', step { s with input := r :: rest } = .next t ∧ step { s' with input := r :: rest' } = .next t' ∧
      t.result = t'.result ∧ t.dout = t'.dout ∧ t.regs = t'.regs

/-- O50 (formalises R16). A step with any selector that names an operation, other than 0x1B (SET_AF) and 0x16
(SET_F), answers from every state and for every din a next state with the four flags as before; and whichever
four booleans SET_F or SET_AF is given are stored and returned unchanged by the next GET_F and GET_AF. -/
def Obligations.FlagsChangeOnlyByTheirOwnWrites : Prop :=
  (∀ (op : Selector) (din : Word16) (rest : List Request) (s : State),
    op ∉ reservedSelectors → op ≠ 0x1B#5 → op ≠ 0x16#5 →
      ∃ t, step { s with input := ⟨op, din⟩ :: rest } = .next t ∧ t.regs.f = s.regs.f) ∧
  (∀ (fl : Flags) (a : Byte) (s : State), ∃ t u x y,
    exec (.setF (flagsToVector fl)) s = .next t ∧ t.regs.f = fl ∧
    exec (.setAF (concat a (encodeFlags fl))) s = .next u ∧ u.regs.f = fl ∧
    exec .getF t = .next x ∧ x.result = some (placeFlags (flagsToVector fl)) ∧
    exec .getAF u = .next y ∧ y.result = some (concat a (encodeFlags fl)))

/-- O51 (formalises R14). Where the oldest request issued names an operation, a step from every state answers a
next state whose stored state is the old one with the operation's own writes and nothing else; and from two
states that agree on the registers (and the flags, where it reads them) that its rule reads, whatever else
they hold, its step returns the same result. -/
def Obligations.StepWritesAndObservesOnlyTheNamedFields : Prop :=
  (∀ (r : Request) (rest : List Request) (s : State), (decode r).wellFormed = true →
    ∃ t, step { s with input := r :: rest } = .next t ∧ t.regs = storedAfter [decode r] s.regs) ∧
  (∀ (r : Request) (rest rest' : List Request) (s s' : State), (decode r).wellFormed = true →
    (∀ x ∈ registersRead (decode r), s.regs.read x = s'.regs.read x) →
    (readsFlags (decode r) = true → s.regs.f = s'.regs.f) →
      ∃ t t', step { s with input := r :: rest } = .next t ∧ step { s' with input := r :: rest' } = .next t' ∧
        t.result = t'.result)
end

