-- ==== Sys2Proof/Laws/Assembler.lean ====
section
/-! SUPPORT. Reading back what the printer writes: digits, literals, the blank, and a whole line (R41). -/

namespace Sys2Proof.Machine

/-- The digit written for a number below 16 is read as that number. -/
theorem digitValue_hexDigit {n : Nat} (h : n < 16) : digitValue (hexDigit n) = some n := by
  have all : ∀ n < 16, digitValue (hexDigit n) = some n := by decide
  exact all n h

/-- One digit of a base, read on from `acc`. -/
theorem readDigits_cons {base acc n : Nat} (h16 : n < 16) (h : n < base) (cs : List Char) :
    readDigits base acc (hexDigit n :: cs) = readDigits base (acc * base + n) cs := by
  simp [readDigits, digitValue_hexDigit h16, h]

theorem readLiteral_byteLiteral (v : Byte) : readLiteral (byteLiteral v).tail = some v.toNat := by
  have hv := v.isLt
  simp only [byteLiteral, List.tail_cons, readLiteral, readNumber]
  rw [readDigits_cons (by omega) (by omega), readDigits_cons (by omega) (by omega), readDigits]
  exact congrArg some (by omega)

theorem readLiteral_wordLiteral (v : Word16) : readLiteral (wordLiteral v).tail = some v.toNat := by
  have hv := v.isLt
  simp only [wordLiteral, List.tail_cons, readLiteral, readNumber]
  rw [readDigits_cons (by omega) (by omega), readDigits_cons (by omega) (by omega),
    readDigits_cons (by omega) (by omega), readDigits_cons (by omega) (by omega), readDigits]
  exact congrArg some (by omega)

theorem readLiteral_binaryLiteral (fv : FlagVector) : readLiteral (binaryLiteral fv).tail = some fv.toNat := by
  have hv := fv.isLt
  simp only [binaryLiteral, List.tail_cons, readLiteral, readNumber]
  rw [readDigits_cons (by omega) (by omega), readDigits_cons (by omega) (by omega),
    readDigits_cons (by omega) (by omega), readDigits_cons (by omega) (by omega), readDigits]
  exact congrArg some (by omega)

/-- Text is split at its first blank. -/
theorem splitBlank_append {m : List Char} (h : ∀ c ∈ m, c ≠ ' ') (lit : List Char) :
    splitBlank (m ++ ' ' :: lit) = (m, some lit) := by
  induction m with
  | nil => rfl
  | cons c cs ih => simp [splitBlank, h c (by simp), ih fun d hd => h d (by simp [hd])]

/-- A mnemonic, a blank and a literal that fits the row's operand assemble to that row's request. -/
theorem assemble_operand {m lit : List Char} {row : OpcodeRow} {n : Nat} (hm : ∀ c ∈ m, c ≠ ' ')
    (hrow : rowOfMnemonic m = some row) (hlit : readLiteral lit = some n) (hbits : row.operandBits ≠ 0)
    (hn : n < 2 ^ row.operandBits) :
    assemble (m ++ ' ' :: lit) = some ⟨row.op, BitVec.ofNat 16 n⟩ := by
  rw [assemble, splitBlank_append hm, hrow]
  simp [hlit, assembleRow, hbits, hn]

/-- The row a mnemonic finds is a row of the table that is not reserved. -/
theorem rowOfMnemonic_spec {m : List Char} {row : OpcodeRow} (h : rowOfMnemonic m = some row) :
    row ∈ opcodeTable ∧ row.reserved = false ∧ row.mnemonic.toList = m := by
  have hp := List.find?_some h
  simp only [Bool.and_eq_true, Bool.not_eq_true', beq_iff_eq] at hp
  exact ⟨List.mem_of_find?_eq_some h, hp.1, hp.2⟩

end Sys2Proof.Machine
end

