-- ==== Sys2Proof/Laws/State.lean ====
section
/-! SUPPORT. One lemma per field per update of the state, and the read-after-write laws of the register
file (R13, R14). -/

namespace Sys2Proof.Machine

@[simp] theorem State.answer_regs (s : State) (v : Word16) : (s.answer v).regs = s.regs := rfl
@[simp] theorem State.answer_input (s : State) (v : Word16) : (s.answer v).input = s.input := rfl
@[simp] theorem State.answer_result (s : State) (v : Word16) : (s.answer v).result = some v := rfl
@[simp] theorem State.answer_refusalMark (s : State) (v : Word16) : (s.answer v).refusalMark = s.refusalMark := rfl

@[simp] theorem State.store_regs (s : State) (rf : RegisterFile) : (s.store rf).regs = rf := rfl
@[simp] theorem State.store_input (s : State) (rf : RegisterFile) : (s.store rf).input = s.input := rfl
@[simp] theorem State.store_result (s : State) (rf : RegisterFile) : (s.store rf).result = none := rfl
@[simp] theorem State.store_refusalMark (s : State) (rf : RegisterFile) : (s.store rf).refusalMark = s.refusalMark := rfl

@[simp] theorem State.refuse_regs (s : State) : s.refuse.regs = s.regs := rfl
@[simp] theorem State.refuse_input (s : State) : s.refuse.input = s.input := rfl
@[simp] theorem State.refuse_result (s : State) : s.refuse.result = none := rfl
@[simp] theorem State.refuse_refusalMark (s : State) : s.refuse.refusalMark = true := rfl

@[simp] theorem State.issue_regs (s : State) (r : Request) : (s.issue r).regs = s.regs := rfl
@[simp] theorem State.issue_input (s : State) (r : Request) : (s.issue r).input = s.input ++ [r] := rfl
@[simp] theorem State.issue_result (s : State) (r : Request) : (s.issue r).result = s.result := rfl
@[simp] theorem State.issue_refusalMark (s : State) (r : Request) : (s.issue r).refusalMark = s.refusalMark := rfl

@[simp] theorem State.issueFirst_regs (s : State) (r : Request) : (s.issueFirst r).regs = s.regs := rfl
@[simp] theorem State.issueFirst_input (s : State) (r : Request) : (s.issueFirst r).input = r :: s.input := rfl
@[simp] theorem State.issueFirst_result (s : State) (r : Request) : (s.issueFirst r).result = s.result := rfl
@[simp] theorem State.issueFirst_refusalMark (s : State) (r : Request) : (s.issueFirst r).refusalMark = s.refusalMark := rfl

@[simp] theorem State.construct_regs (init : RegisterFile) : (State.construct init).regs = init := rfl
@[simp] theorem State.construct_input (init : RegisterFile) : (State.construct init).input = [] := rfl
@[simp] theorem State.construct_result (init : RegisterFile) : (State.construct init).result = none := rfl
@[simp] theorem State.construct_refusalMark (init : RegisterFile) :
    (State.construct init).refusalMark = false := rfl

/-- Read after write: the register written reads as the value, every other as before. -/
@[simp] theorem RegisterFile.read_write (rf : RegisterFile) (r r' : Reg8) (v : Byte) :
    (rf.write r v).read r' = if r' = r then v else rf.read r' := by
  cases r <;> cases r' <;> rfl

@[simp] theorem RegisterFile.write_f (rf : RegisterFile) (r : Reg8) (v : Byte) : (rf.write r v).f = rf.f := by
  cases r <;> rfl

@[simp] theorem RegisterFile.read_writeFlags (rf : RegisterFile) (fl : Flags) (r : Reg8) :
    (rf.writeFlags fl).read r = rf.read r := by
  cases r <;> rfl

@[simp] theorem RegisterFile.writeFlags_f (rf : RegisterFile) (fl : Flags) : (rf.writeFlags fl).f = fl := rfl

/-- A register file is what its registers and its flags read as. -/
theorem RegisterFile.ext_read {x y : RegisterFile} (hr : ∀ r, x.read r = y.read r) (hf : x.f = y.f) : x = y := by
  have ha := hr .a
  have hb := hr .b
  have hc := hr .c
  have hd := hr .d
  have he := hr .e
  have hh := hr .h
  have hl := hr .l
  cases x
  cases y
  simp_all [RegisterFile.read]

end Sys2Proof.Machine
end

