-- ==== Sys2Proof/Laws/Ops.lean ====
section
/-! SUPPORT. What the shared operations do: the halves of a 16-bit value (R8, R26), pairs and their halves
(R19, R20), and the caller's queue (log 2). -/

namespace Sys2Proof.Machine

/-- An operand zero-extended into `din` is the operand read back (R37). -/
theorem byteOperand_setWidth (op : Selector) (v : Byte) :
    (⟨op, v.setWidth 16⟩ : Request).byteOperand = v := by
  ext k hk
  have h : k < 16 := by omega
  simp [Request.byteOperand, h, hk]

theorem flagOperand_setWidth (op : Selector) (fv : FlagVector) :
    (⟨op, fv.setWidth 16⟩ : Request).flagOperand = fv := by
  ext k hk
  have h : k < 16 := by omega
  simp [Request.flagOperand, h, hk]

theorem wordOperand_mk (op : Selector) (v : Word16) : (⟨op, v⟩ : Request).wordOperand = v := rfl

/-- The high half is the value shifted right by 8. -/
theorem hiByte_eq_shift (v : Word16) : hiByte v = (v >>> 8).setWidth 8 := by
  ext k hk
  simp [hiByte]

/-- The low half is the value masked with 0xFF. -/
theorem loByte_eq_mask (v : Word16) : loByte v = (v &&& 0x00FF#16).setWidth 8 := by
  ext k hk
  interval_cases k <;> simp [loByte]

@[simp] theorem hiByte_concat (hi lo : Byte) : hiByte (concat hi lo) = hi := by
  ext k hk
  have h1 : 8 + k < 16 := by omega
  simp [hiByte, concat, hk, h1]

@[simp] theorem loByte_concat (hi lo : Byte) : loByte (concat hi lo) = lo := by
  ext k hk
  have h : k < 16 := by omega
  simp [loByte, concat, hk, h]

@[simp] theorem concat_hiByte_loByte (v : Word16) : concat (hiByte v) (loByte v) = v := by
  ext k hk
  by_cases h : k < 8
  · simp [hiByte, loByte, concat, h, BitVec.getLsbD_eq_getElem hk]
  · have e : 8 + (k - 8) = k := by omega
    have hk' : k - 8 < 8 := by omega
    simp [hiByte, loByte, concat, h, hk', e, BitVec.getLsbD_eq_getElem hk]

/-- Each half of a raw pair is one single register; AF's low half is no single register (R19). -/
theorem RegisterFile.read_writePair (rf : RegisterFile) (p : Pair) (v : Word16) (r : Reg8) :
    (rf.writePair p v).read r =
      match p, r with
      | .af, .a | .bc, .b | .de, .d | .hl, .h => hiByte v
      | .bc, .c | .de, .e | .hl, .l => loByte v
      | _, r => rf.read r := by
  cases p <;> cases r <;> rfl

/-- A pair write changes the flags only where the pair is AF (R53). -/
theorem RegisterFile.writePair_f (rf : RegisterFile) (p : Pair) (v : Word16) :
    (rf.writePair p v).f = if p = .af then decodeFlags (loByte v) else rf.f := by
  cases p <;> rfl

/-- Reading one pair after writing another gives what it held before. -/
theorem RegisterFile.readPair_writePair_of_ne (rf : RegisterFile) {p q : Pair} (h : q ≠ p) (v : Word16) :
    (rf.writePair p v).readPair q = rf.readPair q := by
  cases p <;> cases q <;> first | exact absurd rfl h | rfl

/-- Nothing is fetched from an empty queue. -/
@[simp] theorem State.fetch_nil {s : State} (h : s.input = []) : s.fetch = none := by
  simp [State.fetch, h]

/-- The oldest request is fetched, and only the queue changes. -/
@[simp] theorem State.fetch_cons {s : State} {r : Request} {rest : List Request} (h : s.input = r :: rest) :
    s.fetch = some (r, { s with input := rest }) := by
  simp [State.fetch, h]

@[simp] theorem State.fetch_issueFirst (s : State) (r : Request) : (s.issueFirst r).fetch = some (r, s) := rfl

end Sys2Proof.Machine
end

