-- ==== Sys2Proof/Laws/PerInstr.lean ====
section
/-! SUPPORT. For each instruction: the row of the opcode table that stands for it. -/

namespace Sys2Proof.Laws.TableRow

open Sys2Proof

/-- The table holds a row with the instruction's mnemonic and selector, marked reserved exactly where the
instruction names no operation (R34, R40). -/
def Statement (i : Instr) : Prop :=
  ∃ row ∈ opcodeTable, row.mnemonic = i.mnemonic ∧ row.op = (encode i).op ∧ row.reserved = !i.wellFormed

/-- The number of bits of `din` an instruction uses (R37). -/
def operandBits : Instr → Nat
  | .flagsEncode _ | .setF _ => 4
  | .setA _ | .setB _ | .setC _ | .setD _ | .setE _ | .setH _ | .setL _ | .flagsDecode _ => 8
  | .setAF _ | .setBC _ | .setDE _ | .setHL _ => 16
  | _ => 0

/-- The instruction's own row, read off its constructor, is a row of the table. -/
theorem row_mem (i : Instr) :
    (⟨i.mnemonic, (encode i).op, operandBits i, !i.wellFormed⟩ : OpcodeRow) ∈ opcodeTable := by
  cases i <;> simp [opcodeTable, readRows, writeRows, Instr.mnemonic, encode, operandBits, Instr.wellFormed]

theorem statement_of_row (i : Instr) : Statement i := ⟨_, row_mem i, rfl, rfl, rfl⟩

theorem getB : Statement .getB := statement_of_row _
theorem getC : Statement .getC := statement_of_row _
theorem getD : Statement .getD := statement_of_row _
theorem getE : Statement .getE := statement_of_row _
theorem getH : Statement .getH := statement_of_row _
theorem getL : Statement .getL := statement_of_row _
theorem getF : Statement .getF := statement_of_row _
theorem getA : Statement .getA := statement_of_row _
theorem getBC : Statement .getBC := statement_of_row _
theorem getDE : Statement .getDE := statement_of_row _
theorem getHL : Statement .getHL := statement_of_row _
theorem getAF : Statement .getAF := statement_of_row _
theorem flagsEncode (v : FlagVector) : Statement (.flagsEncode v) := statement_of_row _
theorem setB (v : Byte) : Statement (.setB v) := statement_of_row _
theorem setC (v : Byte) : Statement (.setC v) := statement_of_row _
theorem setD (v : Byte) : Statement (.setD v) := statement_of_row _
theorem setE (v : Byte) : Statement (.setE v) := statement_of_row _
theorem setH (v : Byte) : Statement (.setH v) := statement_of_row _
theorem setL (v : Byte) : Statement (.setL v) := statement_of_row _
theorem setF (v : FlagVector) : Statement (.setF v) := statement_of_row _
theorem setA (v : Byte) : Statement (.setA v) := statement_of_row _
theorem setBC (v : Word16) : Statement (.setBC v) := statement_of_row _
theorem setDE (v : Word16) : Statement (.setDE v) := statement_of_row _
theorem setHL (v : Word16) : Statement (.setHL v) := statement_of_row _
theorem setAF (v : Word16) : Statement (.setAF v) := statement_of_row _
theorem flagsDecode (v : Byte) : Statement (.flagsDecode v) := statement_of_row _
theorem reserved0D : Statement .reserved0D := statement_of_row _
theorem reserved0E : Statement .reserved0E := statement_of_row _
theorem reserved0F : Statement .reserved0F := statement_of_row _
theorem reserved1D : Statement .reserved1D := statement_of_row _
theorem reserved1E : Statement .reserved1E := statement_of_row _
theorem reserved1F : Statement .reserved1F := statement_of_row _

end Sys2Proof.Laws.TableRow
end

