-- ==== Sys2Proof/Laws/Step.lean ====
section
/-! SUPPORT. Runs of the core, unfolded once: a run is its first step and the rest, and a property that
every step keeps holds along every run. -/

namespace Sys2Proof.Machine

/-- The two kinds of step: nothing issued, or the oldest request run on the state without it. -/
theorem step_cases (s : State) :
    (s.input = [] ∧ step s = .next s) ∨
      ∃ r rest, s.input = r :: rest ∧ step s = exec (decode r) { s with input := rest } := by
  cases h : s.input with
  | nil => exact .inl ⟨rfl, by rw [step, State.fetch_nil h]⟩
  | cons r rest => exact .inr ⟨r, rest, rfl, by rw [step, State.fetch_cons h]⟩

@[simp] theorem run_zero (s : State) : core.run 0 s = .next s := rfl

/-- A run whose first step answers `t` is the rest of the run from `t`. -/
theorem run_succ {s t : State} (k : Nat) (h : step s = .next t) : core.run (k + 1) s = core.run k t := by
  have h' : core.step s = .next t := h
  simp [Host.Core.run, h']

/-- A run with one step more ends with a step from where the shorter run stands. -/
theorem run_snoc {s t : State} {k : Nat} (h : core.run k s = .next t) : core.run (k + 1) s = step t := by
  induction k generalizing s with
  | zero =>
    cases h
    cases hs : step t with
    | next u => exact run_succ 0 hs
    | fault r => cases r
    | refused r =>
      have hs' : core.step t = .refused r := hs
      simp [Host.Core.run, hs']
      rfl
  | succ k ih =>
    cases hs : step s with
    | next u =>
      rw [run_succ k hs] at h
      rw [run_succ (k + 1) hs]
      exact ih h
    | fault r => cases r
    | refused r =>
      have hs' : core.step s = .refused r := hs
      simp [Host.Core.run, hs'] at h

/-- A property that every step answers with and keeps holds along every run. -/
theorem run_keeps {P : State → Prop} (hstep : ∀ s, P s → ∃ t, step s = .next t ∧ P t) (k : Nat) :
    ∀ s, P s → ∃ t, core.run k s = .next t ∧ P t := by
  induction k with
  | zero => exact fun s hs => ⟨s, rfl, hs⟩
  | succ k ih =>
    intro s hs
    obtain ⟨t, ht, hP⟩ := hstep s hs
    rw [run_succ k ht]
    exact ih t hP

end Sys2Proof.Machine
end

