-- ==== Sys2Proof/Tests/Slice0.lean ====
section
/-! SUPPORT. Tests on fixed values, each expected value from the spec (95_test_vectors.md where an id is
named, else the example of the rule), and a witness for every statement that has hypotheses. -/

namespace Sys2Proof.Tests

open Sys2Proof Sys2Proof.Machine Sys2Proof.Safety

/-- The start state of the pair vectors: B=0x11 C=0x22 D=0x33 E=0x44 H=0x55 L=0x66 A=0x77 F=0b1001. -/
def start : State := State.construct ⟨0x77#8, 0x11#8, 0x22#8, 0x33#8, 0x44#8, 0x55#8, 0x66#8, ⟨true, false, false, true⟩⟩

/-- The state a step with one request answers. -/
def after (op : Selector) (din : Word16) (s : State) : Option State :=
  match step (s.issueFirst ⟨op, din⟩) with
  | .next t => some t
  | .fault _ => none
  | .refused _ => none

/-- The port `dout` after one request. -/
def doutOf (op : Selector) (din : Word16) (s : State) : Option Word16 := (after op din s).map State.dout

/-- The four pair views after one request: AF, BC, DE, HL. -/
def pairsAfter (op : Selector) (din : Word16) (s : State) : Option PairFile :=
  (after op din s).map fun t => pairsOf t.regs

/-! ### WellFormed: the check refuses each ill-formed term -/

theorem test_wellFormed_refuses_reserved0D : Instr.wellFormed .reserved0D = false := by decide
theorem test_wellFormed_refuses_reserved0E : Instr.wellFormed .reserved0E = false := by decide
theorem test_wellFormed_refuses_reserved0F : Instr.wellFormed .reserved0F = false := by decide
theorem test_wellFormed_refuses_reserved1D : Instr.wellFormed .reserved1D = false := by decide
theorem test_wellFormed_refuses_reserved1E : Instr.wellFormed .reserved1E = false := by decide
theorem test_wellFormed_refuses_reserved1F : Instr.wellFormed .reserved1F = false := by decide
/-- The nearest accepted neighbours of the reserved selectors (95_test_vectors.md). -/
theorem test_wellFormed_accepts_codec :
    Instr.wellFormed (.flagsEncode 0#4) = true ∧ Instr.wellFormed (.flagsDecode 0#8) = true := by decide

/-! ### Decoding: words written out bit by bit from R35 and R36 (W, K, sel), operands from R37 -/

theorem test_decode_single_reads :
    decode ⟨0b00000#5, 0xFFFF#16⟩ = .getB ∧ decode ⟨0b00001#5, 0xFFFF#16⟩ = .getC ∧
    decode ⟨0b00010#5, 0xFFFF#16⟩ = .getD ∧ decode ⟨0b00011#5, 0xFFFF#16⟩ = .getE ∧
    decode ⟨0b00100#5, 0xFFFF#16⟩ = .getH ∧ decode ⟨0b00101#5, 0xFFFF#16⟩ = .getL ∧
    decode ⟨0b00111#5, 0xFFFF#16⟩ = .getA := by decide
theorem test_decode_single_writes :
    decode ⟨0b10000#5, 0xFF12#16⟩ = .setB 0x12#8 ∧ decode ⟨0b10001#5, 0x00AB#16⟩ = .setC 0xAB#8 ∧
    decode ⟨0b10010#5, 0x8000#16⟩ = .setD 0x00#8 ∧ decode ⟨0b10011#5, 0x00FF#16⟩ = .setE 0xFF#8 ∧
    decode ⟨0b10100#5, 0x1280#16⟩ = .setH 0x80#8 ∧ decode ⟨0b10101#5, 0xAB01#16⟩ = .setL 0x01#8 ∧
    decode ⟨0b10111#5, 0x005A#16⟩ = .setA 0x5A#8 := by decide
theorem test_decode_pair_reads :
    decode ⟨0b01000#5, 0xFFFF#16⟩ = .getBC ∧ decode ⟨0b01001#5, 0xFFFF#16⟩ = .getDE ∧
    decode ⟨0b01010#5, 0xFFFF#16⟩ = .getHL ∧ decode ⟨0b01011#5, 0xFFFF#16⟩ = .getAF := by decide
theorem test_decode_pair_writes :
    decode ⟨0b11000#5, 0x1234#16⟩ = .setBC 0x1234#16 ∧ decode ⟨0b11001#5, 0x00FF#16⟩ = .setDE 0x00FF#16 ∧
    decode ⟨0b11010#5, 0xFF00#16⟩ = .setHL 0xFF00#16 ∧ decode ⟨0b11011#5, 0xABCD#16⟩ = .setAF 0xABCD#16 := by decide
theorem test_decode_codec_and_flags :
    decode ⟨0b01100#5, 0xFFFA#16⟩ = .flagsEncode 0b1010#4 ∧ decode ⟨0b11100#5, 0x12A5#16⟩ = .flagsDecode 0xA5#8 ∧
    decode ⟨0b00110#5, 0xFFFF#16⟩ = .getF ∧ decode ⟨0b10110#5, 0xFFF5#16⟩ = .setF 0b0101#4 := by decide
theorem test_decode_reserved :
    decode ⟨0b01101#5, 0x1234#16⟩ = .reserved0D ∧ decode ⟨0b01110#5, 0x1234#16⟩ = .reserved0E ∧
    decode ⟨0b01111#5, 0x1234#16⟩ = .reserved0F ∧ decode ⟨0b11101#5, 0x1234#16⟩ = .reserved1D ∧
    decode ⟨0b11110#5, 0x1234#16⟩ = .reserved1E ∧ decode ⟨0b11111#5, 0x1234#16⟩ = .reserved1F := by decide
/-- The decoder refuses by name a word beyond five selector bits or sixteen operand bits (R33, R34). -/
theorem test_word_refused_by_name :
    Request.ofWord 0x20 = .error .selectorTooWide ∧ Request.ofWord 0x1000000 = .error .operandTooWide := ⟨rfl, rfl⟩
theorem test_table_word_runs_after_reset :
    (match step (State.reset.withFetchWord 24 0xFFFA0C) with
      | .next t => some t.dout
      | _ => none) = some 0x00A0#16 := by decide
theorem test_selectors_distinct : (opcodeTable.map OpcodeRow.op).Nodup ∧ opcodeTable.length = 32 := by decide

/-! ### Reads -/

/-- R60 to R66 on the start state of the vectors; `dout` is zero-extended. -/
theorem test_single_reads :
    doutOf 0x07#5 0#16 start = some 0x0077#16 ∧ doutOf 0x00#5 0#16 start = some 0x0011#16 ∧
    doutOf 0x01#5 0#16 start = some 0x0022#16 ∧ doutOf 0x02#5 0#16 start = some 0x0033#16 ∧
    doutOf 0x03#5 0#16 start = some 0x0044#16 ∧ doutOf 0x04#5 0#16 start = some 0x0055#16 ∧
    doutOf 0x05#5 0#16 start = some 0x0066#16 := by decide
/-- V-IND and the note under V-AF: GET_AF = 0x7790, BC = 0x1122, DE = 0x3344, HL = 0x5566. -/
theorem test_pair_reads :
    doutOf 0x0B#5 0#16 start = some 0x7790#16 ∧ doutOf 0x08#5 0#16 start = some 0x1122#16 ∧
    doutOf 0x09#5 0#16 start = some 0x3344#16 ∧ doutOf 0x0A#5 0#16 start = some 0x5566#16 := by decide
/-- R74: F = 0b1001 gives GET_F = 0x0009. -/
theorem test_getF : doutOf 0x06#5 0#16 start = some 0x0009#16 := by decide

/-! ### Writes -/

/-- V-IND-1 to V-IND-4. -/
theorem test_setBC : pairsAfter 0x18#5 0x1234#16 start = some ⟨0x7790#16, 0x1234#16, 0x3344#16, 0x5566#16⟩ := by decide
theorem test_setDE : pairsAfter 0x19#5 0x1234#16 start = some ⟨0x7790#16, 0x1122#16, 0x1234#16, 0x5566#16⟩ := by decide
theorem test_setHL : pairsAfter 0x1A#5 0x1234#16 start = some ⟨0x7790#16, 0x1122#16, 0x3344#16, 0x1234#16⟩ := by decide
theorem test_setAF : pairsAfter 0x1B#5 0x1234#16 start = some ⟨0x1230#16, 0x1122#16, 0x3344#16, 0x5566#16⟩ := by decide
/-- V-AF-8: SET_AF 0xABCD leaves A = 0xAB and F = 0b1100. -/
theorem test_setAF_flags :
    (after 0x1B#5 0xABCD#16 start).map (fun t => (t.regs.a, t.regs.f)) = some (0xAB#8, ⟨true, true, false, false⟩) := by decide
/-- V-IND-5 to V-IND-7. -/
theorem test_setA : pairsAfter 0x17#5 0x00EE#16 start = some ⟨0xEE90#16, 0x1122#16, 0x3344#16, 0x5566#16⟩ := by decide
theorem test_setL : pairsAfter 0x15#5 0x00EE#16 start = some ⟨0x7790#16, 0x1122#16, 0x3344#16, 0x55EE#16⟩ := by decide
theorem test_setF : pairsAfter 0x16#5 0x0006#16 start = some ⟨0x7760#16, 0x1122#16, 0x3344#16, 0x5566#16⟩ := by decide
/-- V-REG-2 to V-REG-6, from all-zero registers; `din[15:8]` is ignored. -/
theorem test_setB : pairsAfter 0x10#5 0xFF12#16 State.reset = some ⟨0#16, 0x1200#16, 0#16, 0#16⟩ := by decide
theorem test_setC : pairsAfter 0x11#5 0x00AB#16 State.reset = some ⟨0#16, 0x00AB#16, 0#16, 0#16⟩ := by decide
theorem test_setD : pairsAfter 0x12#5 0x8000#16 start = some ⟨0x7790#16, 0x1122#16, 0x0044#16, 0x5566#16⟩ := by decide
theorem test_setE : pairsAfter 0x13#5 0x00FF#16 State.reset = some ⟨0#16, 0#16, 0x00FF#16, 0#16⟩ := by decide
theorem test_setH : pairsAfter 0x14#5 0x1280#16 State.reset = some ⟨0#16, 0#16, 0#16, 0x8000#16⟩ := by decide
/-- V-FLG-4: only `din[3:0]` is used. -/
theorem test_setF_ignores_high_bits :
    (after 0x16#5 0xFFF0#16 start).map (fun t => t.regs.f) = some ⟨false, false, false, false⟩ := by decide
/-- R39: after a write there is no result and `dout` is 0x0000. -/
theorem test_write_has_no_result :
    (after 0x18#5 0xABCD#16 start).map (fun t => (t.result, t.dout)) = some (none, 0x0000#16) := by decide

/-! ### Codec -/

/-- V-COD-2 and V-COD-4. -/
theorem test_encode : doutOf 0x0C#5 0xFFFA#16 start = some 0x00A0#16 ∧ doutOf 0x0C#5 0x000F#16 start = some 0x00F0#16 := by decide
/-- V-COD-6 and V-DEC-6 (the equals-one form would give 0x0000, R48). -/
theorem test_decode : doutOf 0x1C#5 0x12A5#16 start = some 0x000A#16 ∧ doutOf 0x1C#5 0x0080#16 start = some 0x0008#16 := by decide
/-- V-COD: the codec operations write no state. -/
theorem test_codec_keeps_state :
    (after 0x0C#5 0x000A#16 start).map State.regs = some start.regs ∧
    (after 0x1C#5 0x00A0#16 start).map State.regs = some start.regs := by decide

/-! ### Reserved selectors: V-RSV-1 to V-RSV-6 -/

theorem test_reserved_refused :
    ∀ op ∈ reservedSelectors, after op 0x1234#16 start = some { start with result := none, refusalMark := true } := by decide
/-- Program P4, steps 4 and 5: after a refused step the block runs on, and the mark stays. -/
theorem test_mark_stays_after_refusal :
    (after 0x06#5 0#16 start.refuse).map (fun t => (t.dout, t.refusalMark)) = some (0x0009#16, true) := by decide

/-! ### Text form: the examples of R41, and texts that are no operation's -/

theorem test_assemble :
    assemble "GET_BC".toList = some ⟨0x08#5, 0#16⟩ ∧ assemble "SET_BC 0x1234".toList = some ⟨0x18#5, 0x1234#16⟩ ∧
    assemble "SET_F 0b1010".toList = some ⟨0x16#5, 0x000A#16⟩ ∧ assemble "ENCODE 0b1010".toList = some ⟨0x0C#5, 0x000A#16⟩ ∧
    assemble "DECODE 0xA0".toList = some ⟨0x1C#5, 0x00A0#16⟩ ∧ assemble "SET_E 255".toList = some ⟨0x13#5, 0x00FF#16⟩ := by decide
theorem test_assemble_refuses :
    assemble "SET_B 0x100".toList = none ∧ assemble "SET_F 0b10000".toList = none ∧ assemble "SET_B".toList = none ∧
    assemble "GET_B 0x01".toList = none ∧ assemble "RESERVED_0D".toList = none ∧ assemble "SET_B 0x".toList = none := by decide
theorem test_print : printInstr (.setBC 0x1234#16) = "SET_BC 0x1234".toList := by decide

/-! ### Witnesses: every statement with hypotheses has a state and operands that meet them -/

/-- UnusedOperandBitsHaveNoEffect: two different `din` that agree on the used bits, for each width. -/
theorem witness_unused_bits :
    (0xFF12#16 &&& operandMask 0x10#5 = 0x0012#16 &&& operandMask 0x10#5) ∧
    (0xFFFA#16 &&& operandMask 0x16#5 = 0x000A#16 &&& operandMask 0x16#5) ∧
    (0xFFFF#16 &&& operandMask 0x00#5 = 0x0000#16 &&& operandMask 0x00#5) ∧
    (0xFFFF#16 &&& operandMask 0x18#5 = 0xFFFF#16 &&& operandMask 0x18#5) := by decide
/-- PrintedOperationAssemblesToItsRequest. -/
theorem witness_printed : Instr.wellFormed (.setAF 0xFFFF#16) = true := by decide
/-- AssembledTextNamesAnOperationWithAFittingOperand. -/
theorem witness_assembled : assemble "SET_A 0xFF".toList = some ⟨0x17#5, 0x00FF#16⟩ := by decide
/-- RawPairRoundTrip. -/
theorem witness_raw_pair : Pair.bc ≠ Pair.af ∧ Pair.de ≠ Pair.af ∧ Pair.hl ≠ Pair.af := by decide
/-- PairWriteLeavesEveryOtherPair and PairViewsDetermineTheStoredState. -/
theorem witness_other_pair : Pair.af ≠ Pair.hl ∧ Pair.hl ≠ Pair.bc := by decide
/-- OnlyAFlagWriteChangesTheFlags. -/
theorem witness_no_flag_write : (∀ v, Instr.setA 0xFF#8 ≠ .setAF v) ∧ (∀ fv, Instr.setA 0xFF#8 ≠ .setF fv) :=
  ⟨fun _ => Instr.noConfusion, fun _ => Instr.noConfusion⟩
/-- PackedFlagsByteHasNoStoredLowNibble. -/
theorem witness_low_nibble : 0xABCD#16 &&& 0xFFF0#16 = 0xABC0#16 &&& 0xFFF0#16 := by decide
/-- EachOperationTouchesAndObservesOnlyItsFields: two different states that agree on what GET_AF reads. -/
theorem witness_observed :
    (∀ r ∈ registersRead .getAF, start.regs.read r = ({ start.regs with b := 0xFF#8 } : RegisterFile).read r) ∧
    (readsFlags .getAF = true → start.regs.f = ({ start.regs with b := 0xFF#8 } : RegisterFile).f) := by decide
/-- ReadsHaveNoEffectAndOperationsAreIdempotent: both ways of meeting its hypothesis. -/
theorem witness_reads :
    (encode .getAF).op.getLsbD 4 = false ∧ (∃ b, Instr.flagsDecode 0xA5#8 = .flagsDecode b) := ⟨by decide, _, rfl⟩
/-- RefusedStepChangesOnlyTheMark: the lowest and the highest reserved selector. -/
theorem witness_reserved : 0x0D#5 ∈ reservedSelectors ∧ 0x1F#5 ∈ reservedSelectors := by decide
/-- ResultsDependOnlyOnStoredStateAndInputs and ResultDependsOnlyOnStoredStateAndOwnOperand: two different
states that go on differently after one operation. -/
theorem witness_same_inputs :
    ((start.issue ⟨0x08#5, 0#16⟩).issue ⟨0x10#5, 0x12#16⟩).input.take 1 = (start.refuse.issue ⟨0x08#5, 0#16⟩).input.take 1 ∧
    (decode ⟨0x08#5, 0#16⟩).wellFormed = true ∧
    (start.issue ⟨0x08#5, 0#16⟩).regs = (start.refuse.issue ⟨0x08#5, 0#16⟩).regs ∧
    (start.issue ⟨0x08#5, 0#16⟩).input = (start.refuse.issue ⟨0x08#5, 0#16⟩).input ∧
    0 < 1 ∧ 1 ≤ (start.issue ⟨0x08#5, 0#16⟩).input.length := by decide
/-- SafeRunIsKeptByEveryStep and ResetIsASafeRun: a safe run with an operation waiting. -/
theorem witness_safe_run :
    SafeRun (start.issue ⟨0x1B#5, 0x1234#16⟩) ∧ (decode ⟨0x1B#5, 0x1234#16⟩).wellFormed = true := by
  refine ⟨⟨rfl, ?_⟩, by decide⟩
  intro r hr
  cases List.mem_singleton.mp hr
  decide
/-- RunsConsumeOneOperationPerStep and PairDesignSimulatesTheBlock: the first and the last request waiting. -/
theorem witness_waiting :
    ((start.issue ⟨0x0B#5, 0#16⟩).issue ⟨0x06#5, 0#16⟩).input[0]? = some ⟨0x0B#5, 0#16⟩ ∧
    ((start.issue ⟨0x0B#5, 0#16⟩).issue ⟨0x06#5, 0#16⟩).input[1]? = some ⟨0x06#5, 0#16⟩ := by decide
/-- EveryNamedOperationSucceeds and EachOperationSeesExactlyTheEarlierWrites: a write, then a read of it. -/
theorem witness_named_operations :
    (∀ x ∈ [(⟨0x18#5, 0xABCD#16⟩ : Request)], (decode x).wellFormed = true) ∧
    (decode ⟨0x00#5, 0#16⟩).wellFormed = true := by decide
/-- FlagsChangeOnlyByTheirOwnWrites: a write and a read whose selectors stand beside the excluded ones. -/
theorem witness_flag_selectors :
    (0x1A#5 ∉ reservedSelectors ∧ 0x1A#5 ≠ 0x1B#5 ∧ 0x1A#5 ≠ 0x16#5) ∧
    (0x06#5 ∉ reservedSelectors ∧ 0x06#5 ≠ 0x1B#5 ∧ 0x06#5 ≠ 0x16#5) := by decide
/-- StepWritesAndObservesOnlyTheNamedFields: GET_AF on two states that differ in b. -/
theorem witness_step_observed :
    (decode ⟨0x0B#5, 0#16⟩).wellFormed = true ∧
    (∀ x ∈ registersRead (decode ⟨0x0B#5, 0#16⟩), start.regs.read x = (start.regs.write .b 0xFF#8).read x) ∧
    (readsFlags (decode ⟨0x0B#5, 0#16⟩) = true → start.regs.f = (start.regs.write .b 0xFF#8).f) := by decide
/-- StepRunsTheOldestRequest, its second clause. -/
theorem witness_nothing_issued : start.input = [] := by decide
/-- FetchedWordIsRunNext: a word of one byte and a word of three. -/
theorem witness_fetched_word :
    decodeTableWord 8 0x0F = some .reserved0F ∧ decodeTableWord 24 0xFFFF1B = some (.setAF 0xFFFF#16) := by decide

end Sys2Proof.Tests
end

/-! ## What one instruction does

Every instruction answers a next state (R77), and that state is written once, in `exec_eq`: the stored state
with the instruction's own writes (R14), its result (R39), and the refusal mark (R40). Every statement about an
operation or a step follows from this equation and from facts about the flags codec. -/

namespace Sys2Proof.Machine

open Sys2Proof.Safety

/-- What an instruction returns on a stored state, in its `dout` form (R39): none after a write or a refusal. -/
def resultOn : Instr → RegisterFile → Option Word16
  | .getA, rf => some (placeByte (rf.read .a))
  | .getB, rf => some (placeByte (rf.read .b))
  | .getC, rf => some (placeByte (rf.read .c))
  | .getD, rf => some (placeByte (rf.read .d))
  | .getE, rf => some (placeByte (rf.read .e))
  | .getH, rf => some (placeByte (rf.read .h))
  | .getL, rf => some (placeByte (rf.read .l))
  | .getF, rf => some (placeFlags (flagsToVector rf.f))
  | .getAF, rf => some (rf.readPair .af)
  | .getBC, rf => some (rf.readPair .bc)
  | .getDE, rf => some (rf.readPair .de)
  | .getHL, rf => some (rf.readPair .hl)
  | .flagsEncode fv, _ => some (placeByte (encodeFlags (flagsOfVector fv)))
  | .flagsDecode b, _ => some (placeFlags (flagsToVector (decodeFlags b)))
  | _, _ => none

/-- The next state of every instruction, field by field. -/
theorem exec_eq (i : Instr) (s : State) :
    exec i s = .next
      { regs := storedAfter [i] s.regs
        input := s.input
        result := resultOn i s.regs
        refusalMark := !i.wellFormed || s.refusalMark } := by
  cases i <;> rfl

/-- A step with a request issued runs that request on the state without it (R30, R85). -/
theorem step_cons (r : Request) (rest : List Request) (s : State) :
    step { s with input := r :: rest } = exec (decode r) { s with input := rest } := rfl

/-- The next state of a step with a request issued, field by field. -/
theorem step_cons_eq (r : Request) (rest : List Request) (s : State) :
    step { s with input := r :: rest } = .next
      { regs := storedAfter [decode r] s.regs
        input := rest
        result := resultOn (decode r) s.regs
        refusalMark := !(decode r).wellFormed || s.refusalMark } := by
  rw [step_cons, exec_eq]

/-- One instruction leaves each register at the value its rule writes, else at its old value (R14). -/
@[simp] theorem read_storedAfter_singleton (i : Instr) (rf : RegisterFile) (r : Reg8) :
    (storedAfter [i] rf).read r = (registerWrite i r).getD (rf.read r) := by
  cases r <;> rfl

/-- One instruction leaves the flags its rule writes, else the old ones (R16). -/
@[simp] theorem storedAfter_singleton_f (i : Instr) (rf : RegisterFile) :
    (storedAfter [i] rf).f = (flagsWrite i).getD rf.f := rfl

/-- An instruction's result is fixed by the registers and flags its rule reads (R14). -/
theorem resultOn_congr {i : Instr} {x y : RegisterFile} (hr : ∀ r ∈ registersRead i, x.read r = y.read r)
    (hf : readsFlags i = true → x.f = y.f) : resultOn i x = resultOn i y := by
  cases i with
  | getA | getB | getC | getD | getE | getH | getL => exact congrArg (fun b => some (placeByte b)) (hr _ (.head _))
  | getF => exact congrArg (fun fl => some (placeFlags (flagsToVector fl))) (hf rfl)
  | getAF => exact congrArg some (congrArg₂ concat (hr _ (.head _)) (congrArg encodeFlags (hf rfl)))
  | getBC | getDE | getHL => exact congrArg some (congrArg₂ concat (hr _ (.head _)) (hr _ (.tail _ (.head _))))
  | _ => rfl

end Sys2Proof.Machine

/-! ## The selector of an instruction (R34 to R36) -/

namespace Sys2Proof

/-- Decoding keeps the selector: all 32 are rows of the table, whatever `din` is (R35, R36). -/
@[simp] theorem encode_decode_op (r : Request) : (encode (decode r)).op = r.op := by
  obtain ⟨⟨⟨n, hn⟩⟩, din⟩ := r
  interval_cases n <;> simp [decode, encode]

/-- Only the selectors of SET_AF and SET_F name an operation that writes the flags (R16). -/
theorem flagsWrite_eq_none_of_op_ne {i : Instr} (hAF : (encode i).op ≠ 0x1B#5) (hF : (encode i).op ≠ 0x16#5) :
    Safety.flagsWrite i = none := by
  cases i with
  | setAF v => exact absurd rfl hAF
  | setF fv => exact absurd rfl hF
  | _ => rfl

end Sys2Proof

/-! ## The flags codec and the low nibble (R17, R38, R43, R44) -/

namespace Sys2Proof.Machine

@[simp] theorem decodeFlags_encodeFlags (fl : Flags) : decodeFlags (encodeFlags fl) = fl := by
  have all : ∀ z n h c : Bool, decodeFlags (encodeFlags ⟨z, n, h, c⟩) = ⟨z, n, h, c⟩ := by decide
  exact all ..

@[simp] theorem flagsOfVector_flagsToVector (fl : Flags) : flagsOfVector (flagsToVector fl) = fl := by
  have all : ∀ z n h c : Bool, flagsOfVector (flagsToVector ⟨z, n, h, c⟩) = ⟨z, n, h, c⟩ := by decide
  exact all ..

/-- The packed byte has no low nibble. -/
@[simp] theorem encodeFlags_and_low (fl : Flags) : encodeFlags fl &&& 0x0F#8 = 0x00#8 := by
  have all : ∀ z n h c : Bool, encodeFlags ⟨z, n, h, c⟩ &&& 0x0F#8 = 0x00#8 := by decide
  exact all ..

/-- Decoding does not look at the low nibble: each flag's mask stands inside `0xF0`. -/
theorem decodeFlags_and_high (b : Byte) : decodeFlags (b &&& 0xF0#8) = decodeFlags b := by
  simp [decodeFlags, BitVec.and_assoc]

theorem hiByte_and (v w : Word16) : hiByte (v &&& w) = hiByte v &&& hiByte w := BitVec.extractLsb'_and

theorem loByte_and (v w : Word16) : loByte (v &&& w) = loByte v &&& loByte w := BitVec.extractLsb'_and

/-- A mask of one byte's width sees the low half only. -/
theorem concat_and_setWidth (hi lo m : Byte) : concat hi lo &&& m.setWidth 16 = (lo &&& m).setWidth 16 := by
  ext k hk
  by_cases h : k < 8
  · simp [concat, h]
  · simp [concat, BitVec.getLsbD_of_ge m k (by omega)]

/-- Writing AF discards bits 3:0 of the value (R17). -/
theorem writePair_af_and (rf : RegisterFile) (v : Word16) :
    rf.writePair .af (v &&& 0xFFF0#16) = rf.writePair .af v := by
  have hhi : hiByte (v &&& 0xFFF0#16) = hiByte v := by
    rw [hiByte_and]
    exact BitVec.and_allOnes
  have hlo : decodeFlags (loByte (v &&& 0xFFF0#16)) = decodeFlags (loByte v) := by
    rw [loByte_and]
    exact decodeFlags_and_high _
  simp only [RegisterFile.writePair, hhi, hlo]

/-- Reading AF answers zero in bits 3:0 (R17). -/
theorem readPair_af_and (rf : RegisterFile) : rf.readPair .af &&& 0x000F#16 = 0x0000#16 :=
  calc rf.readPair .af &&& 0x000F#16
    _ = (encodeFlags rf.f &&& 0x0F#8).setWidth 16 := concat_and_setWidth _ _ 0x0F#8
    _ = 0x0000#16 := by rw [encodeFlags_and_low]; rfl

/-- SET_AF of a value and of that value with bits 3:0 cleared are one operation. -/
theorem exec_setAF_and (v : Word16) (s : State) : exec (.setAF (v &&& 0xFFF0#16)) s = exec (.setAF v) s :=
  congrArg (fun rf => Host.Outcome.next (s.store rf)) (writePair_af_and s.regs v)

end Sys2Proof.Machine

/-! ## The stored state and what an operation may touch (R14, R16, R17, R23) -/

namespace Sys2Proof.Proofs

open Sys2Proof.Machine Sys2Proof.Safety

/-- Settles O27: the packed byte has no low nibble, and each flag's mask lies above it. -/
theorem packedFlagsByteHasNoStoredLowNibble : Obligations.PackedFlagsByteHasNoStoredLowNibble := by
  refine ⟨fun s => ⟨_, _, exec_eq .getAF s, rfl, readPair_af_and s.regs⟩, fun v v' s h => ?_⟩
  rw [← exec_setAF_and v, h, exec_setAF_and v']

/-- Settles O49: `step_cons_eq` names neither the last result nor what else is issued in the new result and
stored state. -/
theorem resultDependsOnlyOnStoredStateAndOwnOperand :
    Obligations.ResultDependsOnlyOnStoredStateAndOwnOperand := by
  intro r rest rest' s s' _ hregs
  refine ⟨_, _, step_cons_eq r rest s, step_cons_eq r rest' s', ?_⟩
  simp [State.dout, hregs]

/-- Settles O50: no other selector's operation has a flags write, and the codec gives back what it is given. -/
theorem flagsChangeOnlyByTheirOwnWrites : Obligations.FlagsChangeOnlyByTheirOwnWrites := by
  refine ⟨fun op din rest s _ hAF hF => ⟨_, step_cons_eq ⟨op, din⟩ rest s, ?_⟩, fun fl a s => ?_⟩
  · have hnone : flagsWrite (decode ⟨op, din⟩) = none := flagsWrite_eq_none_of_op_ne (by simpa) (by simpa)
    simp [hnone]
  · refine ⟨_, _, _, _, exec_eq _ s, ?setF, exec_eq _ s, ?setAF, exec_eq .getF _, ?getF, exec_eq .getAF _, ?getAF⟩
    case setF => simp [flagsWrite]
    case setAF => simp [flagsWrite]
    case getF => simp [resultOn, flagsWrite]
    case getAF => simp [resultOn, RegisterFile.readPair, registerWrite, flagsWrite]

/-- Settles O51: a step stores what `storedAfter` of its operation says, and its result is fixed by the fields
its rule reads. -/
theorem stepWritesAndObservesOnlyTheNamedFields : Obligations.StepWritesAndObservesOnlyTheNamedFields := by
  refine ⟨fun r rest s _ => ⟨_, step_cons_eq r rest s, rfl⟩, fun r rest rest' s s' _ hr hf => ?_⟩
  exact ⟨_, _, step_cons_eq r rest s, step_cons_eq r rest' s', resultOn_congr hr hf⟩

end Sys2Proof.Proofs

/-! ## The codec as bit positions (R38, R43, R44) -/

namespace Sys2Proof.Machine

/-- Testing a one-bit mask for nonzero reads that bit. -/
theorem and_twoPow_bne_zero (b : Byte) (k : Nat) (hk : k < 8) :
    (b &&& BitVec.twoPow 8 k != 0#8) = b.getLsbD k := by
  have hmask : BitVec.twoPow 8 k ≠ 0#8 := fun h0 => by simpa [hk] using congrArg (·.getLsbD k) h0
  cases h : b.getLsbD k <;> simp [BitVec.and_twoPow, h, hmask]

/-- The bit of the vector in which each flag stands (R38). -/
@[simp] theorem flagsToVector_bits (fl : Flags) :
    (flagsToVector fl)[3] = fl.zero ∧ (flagsToVector fl)[2] = fl.subtraction ∧
      (flagsToVector fl)[1] = fl.halfCarry ∧ (flagsToVector fl)[0] = fl.carry := by
  have all : ∀ z n h c : Bool,
      (flagsToVector ⟨z, n, h, c⟩)[3] = z ∧ (flagsToVector ⟨z, n, h, c⟩)[2] = n ∧
        (flagsToVector ⟨z, n, h, c⟩)[1] = h ∧ (flagsToVector ⟨z, n, h, c⟩)[0] = c := by decide
  exact all ..

/-- Each mask of the decoder has one bit, so decoding reads bits 7 to 4 (R44, R48). -/
theorem decodeFlags_eq (b : Byte) :
    decodeFlags b = ⟨b.getLsbD 7, b.getLsbD 6, b.getLsbD 5, b.getLsbD 4⟩ := by
  rw [decodeFlags, Flags.mk.injEq]
  exact ⟨and_twoPow_bne_zero b 7 (by decide), and_twoPow_bne_zero b 6 (by decide),
    and_twoPow_bne_zero b 5 (by decide), and_twoPow_bne_zero b 4 (by decide)⟩

/-- The vector of a byte's flags is the byte's high nibble. -/
theorem flagsToVector_decodeFlags (b : Byte) : flagsToVector (decodeFlags b) = b.extractLsb' 4 4 := by
  rw [decodeFlags_eq]
  ext k hk
  interval_cases k <;> simp

/-- The vector of the flags is the high nibble of their packed byte. -/
theorem flagsToVector_eq (fl : Flags) : flagsToVector fl = (encodeFlags fl).extractLsb' 4 4 := by
  rw [← flagsToVector_decodeFlags, decodeFlags_encodeFlags]

/-- The packed byte is the vector moved into the high nibble. -/
theorem encodeFlags_eq (fl : Flags) : encodeFlags fl = (flagsToVector fl).setWidth 8 <<< 4 := by
  have all : ∀ z n h c : Bool, encodeFlags ⟨z, n, h, c⟩ = (flagsToVector ⟨z, n, h, c⟩).setWidth 8 <<< 4 := by decide
  exact all ..

@[simp] theorem flagsToVector_flagsOfVector (fv : FlagVector) : flagsToVector (flagsOfVector fv) = fv := by
  ext k hk
  interval_cases k <;> simp [flagsOfVector]

end Sys2Proof.Machine

/-! ## Results read off the pair views by masks and shifts (R19, R20, R39) -/

namespace Sys2Proof.Machine

open Sys2Proof.Safety

theorem concat_shiftRight (hi lo : Byte) : concat hi lo >>> 8 = placeByte hi := by
  ext k hk
  by_cases h : k < 8
  · simp [concat, placeByte, show 8 + k < 16 by omega]
  · simp [concat, placeByte, BitVec.getLsbD_of_ge hi k (by omega)]

theorem concat_and_low (hi lo : Byte) : concat hi lo &&& 0x00FF#16 = placeByte lo :=
  calc concat hi lo &&& 0x00FF#16
    _ = (lo &&& 0xFF#8).setWidth 16 := concat_and_setWidth hi lo 0xFF#8
    _ = placeByte lo := congrArg placeByte BitVec.and_allOnes

/-- Bits 7 to 4 of a pair are the high nibble of its low half. -/
theorem concat_shiftRight_and (hi lo : Byte) :
    concat hi lo >>> 4 &&& 0x000F#16 = placeFlags (lo.extractLsb' 4 4) := by
  ext k hk
  interval_cases k <;> simp [concat, placeFlags]

/-- GET_F's result stands in bits 7 to 4 of the AF view. -/
theorem placeFlags_eq_readPair_af (rf : RegisterFile) :
    placeFlags (flagsToVector rf.f) = rf.readPair .af >>> 4 &&& 0x000F#16 := by
  rw [flagsToVector_eq]
  exact (concat_shiftRight_and ..).symm

/-- ENCODE's result is its vector moved into the high nibble of a byte. -/
theorem placeByte_encodeFlags_flagsOfVector (fv : FlagVector) :
    placeByte (encodeFlags (flagsOfVector fv)) = fv.setWidth 16 <<< 4 := by
  rw [encodeFlags_eq, flagsToVector_flagsOfVector, placeByte]
  ext k hk
  interval_cases k <;> simp

/-- DECODE's result is the high nibble of its byte. -/
theorem placeFlags_flagsToVector_decodeFlags (b : Byte) :
    placeFlags (flagsToVector (decodeFlags b)) = b.setWidth 16 >>> 4 := by
  rw [flagsToVector_decodeFlags, placeFlags]
  ext k hk
  interval_cases k <;> simp

/-- Every instruction returns what the design of four words returns on the pair views. -/
theorem resultOn_eq_pairResult (i : Instr) (rf : RegisterFile) : resultOn i rf = pairResult i (pairsOf rf) := by
  cases i with
  | getA | getB | getD | getH => exact congrArg some (concat_shiftRight ..).symm
  | getC | getE | getL => exact congrArg some (concat_and_low ..).symm
  | getF => exact congrArg some (placeFlags_eq_readPair_af rf)
  | flagsEncode fv => exact congrArg some (placeByte_encodeFlags_flagsOfVector fv)
  | flagsDecode b => exact congrArg some (placeFlags_flagsToVector_decodeFlags b)
  | _ => rfl

end Sys2Proof.Machine

/-! ## Runs of issued operations (R30, R85) -/

namespace Sys2Proof.Machine

open Sys2Proof.Safety

/-- The last writes of a sequence are those of its tail over what its first operation leaves. -/
theorem storedAfter_cons (i : Instr) (is : List Instr) (rf : RegisterFile) :
    storedAfter (i :: is) rf = storedAfter is (storedAfter [i] rf) := by
  simp [storedAfter, lastRegisterWrite, lastFlagsWrite]

/-- A run of one step more begins with that step. -/
theorem run_succ_of_step {s t : State} (k : Nat) (h : step s = .next t) : core.run (k + 1) s = core.run k t := by
  have hcore : core.step s = .next t := h
  simp only [Host.Core.run, hcore]

/-- As many steps as there are requests in front of the queue consume exactly those and leave their last
writes. -/
theorem run_issued (before rest : List Request) (s : State) :
    ∃ t, core.run before.length { s with input := before ++ rest } = .next t ∧
      t.regs = storedAfter (before.map decode) s.regs ∧ t.input = rest := by
  induction before generalizing s with
  | nil => exact ⟨_, rfl, rfl, rfl⟩
  | cons r before ih =>
    have hfirst := run_succ_of_step before.length (step_cons_eq r (before ++ rest) s)
    obtain ⟨t, hrun, hregs, hinput⟩ := ih
      { s with
        regs := storedAfter [decode r] s.regs
        result := resultOn (decode r) s.regs
        refusalMark := !(decode r).wellFormed || s.refusalMark }
    exact ⟨t, hfirst.trans hrun, hregs.trans (storedAfter_cons ..).symm, hinput⟩

end Sys2Proof.Machine

/-! ## Operations one at a time (R30) -/

namespace Sys2Proof.Proofs

open Sys2Proof.Machine Sys2Proof.Safety

/-- Settles O48: `run_issued` gives the state before the operation, and `step_cons_eq` runs it there. -/
theorem eachOperationSeesExactlyTheEarlierWrites : Obligations.EachOperationSeesExactlyTheEarlierWrites := by
  intro before r later s _ _
  obtain ⟨t, hrun, hregs, hinput⟩ := run_issued before (r :: later) s
  have hstep := step_cons_eq r later t
  rw [← hinput] at hstep
  refine ⟨t, _, hrun, hregs, hstep, ?_, rfl⟩
  rw [← hregs]
  exact resultOn_eq_pairResult ..

end Sys2Proof.Proofs

/-! ## Operands in `din` (R33, R37)

Encoding a decoded request gives back its selector and the masked `din`. Encoding loses nothing, so two requests
that encode alike once decoded are one operation. -/

namespace Sys2Proof

open Sys2Proof.Safety

theorem setWidth_byteOperand (r : Request) : r.byteOperand.setWidth 16 = r.din &&& 0x00FF#16 := by
  ext k hk
  interval_cases k <;> simp [Request.byteOperand]

theorem setWidth_flagOperand (r : Request) : r.flagOperand.setWidth 16 = r.din &&& 0x000F#16 := by
  ext k hk
  interval_cases k <;> simp [Request.flagOperand]

theorem wordOperand_eq_and (r : Request) : r.wordOperand = r.din &&& 0xFFFF#16 := BitVec.and_allOnes.symm

/-- Of `din`, a decoded request keeps the bits its operation uses (R37). -/
@[simp] theorem encode_decode_din (r : Request) : (encode (decode r)).din = r.din &&& operandMask r.op := by
  obtain ⟨⟨⟨n, hn⟩⟩, din⟩ := r
  interval_cases n <;>
    simp [decode, encode, operandMask, setWidth_byteOperand, setWidth_flagOperand, wordOperand_eq_and]

theorem encode_decode (r : Request) : encode (decode r) = ⟨r.op, r.din &&& operandMask r.op⟩ :=
  congrArg₂ Request.mk (encode_decode_op r) (encode_decode_din r)

/-- An instruction is read back from its request: its selector is its own and its operand fits (R35 to R37). -/
@[simp] theorem decode_encode (i : Instr) : decode (encode i) = i := by
  cases i with
  | flagsEncode fv | setF fv => simp [decode, encode, Machine.flagOperand_setWidth]
  | setA v | setB v | setC v | setD v | setE v | setH v | setL v | flagsDecode v =>
    simp [decode, encode, Machine.byteOperand_setWidth]
  | setAF v | setBC v | setDE v | setHL v => simp [decode, encode, Machine.wordOperand_mk]
  | _ => rfl

theorem encode_injective : Function.Injective encode := Function.LeftInverse.injective decode_encode

/-- Requests with one selector that agree on the bits it uses name the same operation with the same operand. -/
theorem decode_eq_of_and_operandMask_eq {op : Selector} {din din' : Word16}
    (h : din &&& operandMask op = din' &&& operandMask op) : decode ⟨op, din⟩ = decode ⟨op, din'⟩ :=
  encode_injective <|
    calc encode (decode ⟨op, din⟩)
      _ = ⟨op, din &&& operandMask op⟩ := encode_decode _
      _ = ⟨op, din' &&& operandMask op⟩ := by rw [h]
      _ = encode (decode ⟨op, din'⟩) := (encode_decode ⟨op, din'⟩).symm

end Sys2Proof

/-! ## The port `dout` after one instruction (R39) -/

namespace Sys2Proof.Machine

theorem exec_dout_of_resultOn_eq_some {i : Instr} {s : State} {v : Word16} (h : resultOn i s.regs = some v) :
    ∃ t, exec i s = .next t ∧ t.dout = v :=
  ⟨_, exec_eq i s, by simp [State.dout, h]⟩

theorem exec_dout_of_resultOn_eq_none {i : Instr} {s : State} (h : resultOn i s.regs = none) :
    ∃ t, exec i s = .next t ∧ t.result = none ∧ t.dout = 0x0000#16 :=
  ⟨_, exec_eq i s, h, by simp [State.dout, h]⟩

end Sys2Proof.Machine

/-! ## The encoding of operations (R35 to R37, R39) -/

namespace Sys2Proof.Proofs

open Sys2Proof.Machine Sys2Proof.Safety

/-- Settles O4: `encode_decode` is its first half, and a step runs what its request decodes to. -/
theorem unusedOperandBitsHaveNoEffect : Obligations.UnusedOperandBitsHaveNoEffect := by
  refine ⟨encode_decode, fun s op din din' rest h => ?_⟩
  rw [step_cons, step_cons, decode_eq_of_and_operandMask_eq h]

/-- Settles O1: on each selector's five bits the decoder takes that selector's row, with `din` still free. -/
theorem selectorTableNamesEveryOperation : Obligations.SelectorTableNamesEveryOperation := by
  intro din
  and_intros <;> simp [decode, Request.byteOperand, Request.flagOperand, Request.wordOperand]

/-- Settles O30: `resultOn` gives each read and codec operation its row's value and each write none. -/
theorem resultIsPlacedOnDout : Obligations.ResultIsPlacedOnDout := by
  intro s
  refine ⟨fun i hi => ?single, fun p => ?pair, ?flags, fun b => ?decode, fun fv => ?encode,
    fun v w fv i hi => ?write⟩
  case single =>
    apply exec_dout_of_resultOn_eq_some
    fin_cases hi <;> rfl
  case pair =>
    apply exec_dout_of_resultOn_eq_some
    cases p <;> rfl
  case flags => exact exec_dout_of_resultOn_eq_some rfl
  case decode => exact exec_dout_of_resultOn_eq_some rfl
  case encode => exact exec_dout_of_resultOn_eq_some rfl
  case write =>
    apply exec_dout_of_resultOn_eq_none
    fin_cases hi <;> rfl

end Sys2Proof.Proofs

/-! ## The codec operations' results bit by bit (R39, R43, R44) -/

namespace Sys2Proof.Machine

/-- The bit of the packed byte in which each flag stands, and bits 3:0, which are always zero (R43). -/
@[simp] theorem encodeFlags_bits (fl : Flags) :
    ((encodeFlags fl)[7] = fl.zero ∧ (encodeFlags fl)[6] = fl.subtraction ∧
      (encodeFlags fl)[5] = fl.halfCarry ∧ (encodeFlags fl)[4] = fl.carry) ∧
    ((encodeFlags fl)[3] = false ∧ (encodeFlags fl)[2] = false ∧
      (encodeFlags fl)[1] = false ∧ (encodeFlags fl)[0] = false) := by
  simp [encodeFlags_eq]

/-- A flag vector on `dout` has its own bits (R39). -/
@[simp] theorem getElem_placeFlags (fv : FlagVector) {k : Nat} (hk : k < 16) :
    (placeFlags fv)[k] = fv.getLsbD k := BitVec.getElem_setWidth ..

/-- A flag vector on `dout` has nothing above bit 3 (R39). -/
theorem toNat_placeFlags_lt (fv : FlagVector) : (placeFlags fv).toNat < 16 := by
  rw [placeFlags, BitVec.toNat_setWidth_of_le (by decide)]
  exact fv.isLt

end Sys2Proof.Machine

/-! ## The flags codec (R43 to R46, R48) -/

namespace Sys2Proof.Proofs

open Sys2Proof.Machine

/-- Settles O8: `encodeFlags_bits` gives the byte, and `exec_eq` says that ENCODE changes only the result. -/
theorem encodePacksTheFourFlags : Obligations.EncodePacksTheFourFlags := by
  refine ⟨fun fl => ?bits, fun fv s => exec_eq (.flagsEncode fv) s, fun din => ?selector⟩
  case bits => simp
  case selector => simp [decode, Request.flagOperand]

/-- Settles O9: the decoder is the mask test itself, and DECODE changes only the result, which shows the vector
of the byte's flags. -/
theorem decodeTestsEachFlagBitForNonzero : Obligations.DecodeTestsEachFlagBitForNonzero := by
  refine ⟨fun b => ⟨bne_iff_ne, bne_iff_ne, bne_iff_ne, bne_iff_ne⟩, fun b s => ?result, fun din => ?selector⟩
  case result =>
    refine ⟨_, exec_eq (.flagsDecode b) s, placeFlags (flagsToVector (decodeFlags b)), rfl, ?_⟩
    simp [toNat_placeFlags_lt]
  case selector => simp [decode, Request.byteOperand]

/-- Settles O10: the codec's own round trip, `decodeFlags_encodeFlags`. -/
theorem flagsRoundTripThroughTheByte : Obligations.FlagsRoundTripThroughTheByte := decodeFlags_encodeFlags

/-- Settles O11: the low nibble of the packed byte, `encodeFlags_and_low`. -/
theorem packedByteLowNibbleIsZero : Obligations.PackedByteLowNibbleIsZero := encodeFlags_and_low

end Sys2Proof.Proofs

/-! ## Pair reads and writes (R19, R20, R49 to R56)

GET_P and SET_P differ from pair to pair only in `readPair` and `writePair`, so each has one equation over `p`. -/

namespace Sys2Proof.Machine

open Sys2Proof.Safety

/-- GET_P answers the pair's value and leaves the stored state as it is (R49 to R52). -/
theorem exec_getPair (p : Pair) (s : State) : exec (getPair p) s = .next (s.answer (s.regs.readPair p)) := by
  cases p <;> rfl

/-- SET_P stores the pair's two halves and answers nothing (R53 to R56). -/
theorem exec_setPair (p : Pair) (v : Word16) (s : State) :
    exec (setPair p v) s = .next (s.store (s.regs.writePair p v)) := by
  cases p <;> rfl

/-- GET_P's selector names GET_P whatever `din` is (R37). -/
theorem decode_getPair_op (p : Pair) (din : Word16) : decode ⟨(encode (getPair p)).op, din⟩ = getPair p := by
  cases p <;> simp [getPair, encode, decode]

theorem step_getPair (p : Pair) (unused : Word16) (rest : List Request) (s : State) :
    step { s with input := ⟨(encode (getPair p)).op, unused⟩ :: rest } =
      .next ({ s with input := rest }.answer (s.regs.readPair p)) := by
  rw [step_cons, decode_getPair_op, exec_getPair]

theorem step_setPair (p : Pair) (v : Word16) (rest : List Request) (s : State) :
    step { s with input := encode (setPair p v) :: rest } =
      .next ({ s with input := rest }.store (s.regs.writePair p v)) := by
  rw [step_cons, decode_encode, exec_setPair]

/-- SET_P v and then GET_Q: the run answers what Q reads as once P is written. -/
theorem run_setPair_getPair (p q : Pair) (v unused : Word16) (rest : List Request) (s : State) :
    core.run 2 { s with input := encode (setPair p v) :: ⟨(encode (getPair q)).op, unused⟩ :: rest } =
      .next (({ s with input := rest }.store (s.regs.writePair p v)).answer ((s.regs.writePair p v).readPair q)) := by
  have hset := run_succ 0 (step_setPair p v (⟨(encode (getPair q)).op, unused⟩ :: rest) s)
  have hget := step_getPair q unused rest (s.store (s.regs.writePair p v))
  exact (run_snoc hset).trans hget

/-- Through the flags a byte keeps bits 7:4 and loses bits 3:0. -/
theorem encodeFlags_decodeFlags (b : Byte) : encodeFlags (decodeFlags b) = b &&& 0xF0#8 := by
  rw [encodeFlags_eq, flagsToVector_decodeFlags]
  ext k hk
  interval_cases k <;> simp

/-- AF reads after its own write as the value with bits 3:0 cleared (R17, R53). -/
theorem readPair_writePair_af (rf : RegisterFile) (v : Word16) :
    (rf.writePair .af v).readPair .af = v &&& 0xFFF0#16 :=
  calc (rf.writePair .af v).readPair .af
    _ = concat (hiByte v) (encodeFlags (decodeFlags (loByte v))) := rfl
    _ = concat (hiByte v &&& 0xFF#8) (loByte v &&& 0xF0#8) := by
      rw [encodeFlags_decodeFlags, show hiByte v &&& 0xFF#8 = hiByte v from BitVec.and_allOnes]
    _ = concat (hiByte (v &&& 0xFFF0#16)) (loByte (v &&& 0xFFF0#16)) := by
      rw [hiByte_and, loByte_and]
      rfl
    _ = v &&& 0xFFF0#16 := concat_hiByte_loByte _

/-- A pair whose halves are both single registers reads after its own write as the value written (R20). -/
theorem readPair_writePair_raw (rf : RegisterFile) {p : Pair} (h : p ≠ .af) (v : Word16) :
    (rf.writePair p v).readPair p = v := by
  cases p with
  | af => exact absurd rfl h
  | bc | de | hl => exact concat_hiByte_loByte v

theorem readPair_writePair_self (rf : RegisterFile) (p : Pair) (v : Word16) :
    (rf.writePair p v).readPair p = if p = .af then v &&& 0xFFF0#16 else v := by
  split
  next h => rw [h, readPair_writePair_af]
  next h => exact readPair_writePair_raw rf h v

/-- SET_AF's low half gives each flag its own bit of the value, from bit 7 to bit 4 (R53). -/
theorem decodeFlags_loByte (v : Word16) :
    decodeFlags (loByte v) = ⟨v.getLsbD 7, v.getLsbD 6, v.getLsbD 5, v.getLsbD 4⟩ := by
  simp [decodeFlags_eq, loByte]

end Sys2Proof.Machine

namespace Sys2Proof.Proofs

open Sys2Proof.Machine Sys2Proof.Safety

/-- Settles O17: the two steps are `run_setPair_getPair`, and BC, DE and HL lose no bit of what is written. -/
theorem rawPairRoundTrip : Obligations.RawPairRoundTrip := by
  intro p v unused rest s hp
  exact ⟨_, run_setPair_getPair p p v unused rest s, congrArg some (readPair_writePair_raw s.regs hp v), rfl⟩

/-- Settles O19: the pair written reads back as itself, and no other pair's view sees the write. -/
theorem pairWriteLeavesEveryOtherPair : Obligations.PairWriteLeavesEveryOtherPair := by
  intro p q v rest s hpq
  refine ⟨_, _, _, step_setPair p v rest s, readPair_writePair_self s.regs p v, exec_getPair q _, exec_getPair q _,
    Option.some_ne_none _, ?otherPair⟩
  exact congrArg some (RegisterFile.readPair_writePair_of_ne s.regs hpq.symm v)

/-- Settles O14: `exec_getPair` at each pair, whose value is its halves' `concat`. -/
theorem pairReadsReturnBothHalvesHighByteFirst : Obligations.PairReadsReturnBothHalvesHighByteFirst := by
  intro s din
  refine ⟨decode_getPair_op .af din, decode_getPair_op .bc din, decode_getPair_op .de din, decode_getPair_op .hl din,
    encodeFlags_and_low s.regs.f, ?_⟩
  exact ⟨exec_getPair .af s, exec_getPair .bc s, exec_getPair .de s, exec_getPair .hl s⟩

/-- Settles O15: `exec_setPair` at each raw pair, with the halves in their shift and mask forms. -/
theorem rawPairWritesSplitTheWord : Obligations.RawPairWritesSplitTheWord := by
  intro v s
  rw [← hiByte_eq_shift, ← loByte_eq_mask]
  exact ⟨decode_encode (.setBC v), decode_encode (.setDE v), decode_encode (.setHL v),
    exec_setPair .bc v s, exec_setPair .de v s, exec_setPair .hl v s⟩

/-- Settles O16: `exec_setPair` at AF, with the flags decoded from the low half in their bit form. -/
theorem setAFWritesAAndDecodesTheFlags : Obligations.SetAFWritesAAndDecodesTheFlags := by
  intro v s
  rw [← hiByte_eq_shift, ← decodeFlags_loByte]
  exact ⟨decode_encode (.setAF v), exec_setPair .af v s⟩

end Sys2Proof.Proofs

/-! ## Single-register and flag operations (R60 to R75)

GET_r and SET_r differ from register to register only in `read` and `write`, so each has one equation over `r`,
as the pair operations have over `p`. -/

namespace Sys2Proof.Machine

/-- GET_r of a register. -/
def getRegister : Reg8 → Instr
  | .a => .getA
  | .b => .getB
  | .c => .getC
  | .d => .getD
  | .e => .getE
  | .h => .getH
  | .l => .getL

/-- SET_r v of a register. -/
def setRegister : Reg8 → Byte → Instr
  | .a, v => .setA v
  | .b, v => .setB v
  | .c, v => .setC v
  | .d, v => .setD v
  | .e, v => .setE v
  | .h, v => .setH v
  | .l, v => .setL v

/-- GET_r answers the register zero-extended and leaves the stored state as it is (R60 to R66). -/
theorem exec_getRegister (r : Reg8) (s : State) :
    exec (getRegister r) s = .next (s.answer (placeByte (s.regs.read r))) := by
  cases r <;> rfl

/-- SET_r v stores the register and answers nothing (R67 to R73). -/
theorem exec_setRegister (r : Reg8) (v : Byte) (s : State) :
    exec (setRegister r v) s = .next (s.store (s.regs.write r v)) := by
  cases r <;> rfl

/-- GET_r's selector names GET_r whatever `din` is (R37). -/
theorem decode_getRegister_op (r : Reg8) (din : Word16) :
    decode ⟨(encode (getRegister r)).op, din⟩ = getRegister r := by
  cases r <;> simp [getRegister, encode, decode]

/-- SET_r's selector names SET_r of `din[7:0]`, whatever `din[15:8]` is (R37). -/
theorem decode_setRegister_op (r : Reg8) (v : Byte) (din : Word16) :
    decode ⟨(encode (setRegister r v)).op, din⟩ = setRegister r (din.extractLsb' 0 8) := by
  cases r <;> simp [setRegister, encode, decode, Request.byteOperand]

end Sys2Proof.Machine

namespace Sys2Proof.Proofs

open Sys2Proof.Machine

/-- Settles O20: `decode_getRegister_op` and `exec_getRegister` at each register. -/
theorem singleReadsReturnTheRegister : Obligations.SingleReadsReturnTheRegister := by
  intro s din
  refine ⟨decode_getRegister_op .a din, decode_getRegister_op .b din, decode_getRegister_op .c din,
    decode_getRegister_op .d din, decode_getRegister_op .e din, decode_getRegister_op .h din,
    decode_getRegister_op .l din, ?_⟩
  exact ⟨exec_getRegister .a s, exec_getRegister .b s, exec_getRegister .c s, exec_getRegister .d s,
    exec_getRegister .e s, exec_getRegister .h s, exec_getRegister .l s⟩

/-- Settles O21: `decode_setRegister_op` and `exec_setRegister` at each register. -/
theorem singleWritesChangeOnlyTheRegister : Obligations.SingleWritesChangeOnlyTheRegister := by
  intro v s din
  refine ⟨decode_setRegister_op .a v din, decode_setRegister_op .b v din, decode_setRegister_op .c v din,
    decode_setRegister_op .d v din, decode_setRegister_op .e v din, decode_setRegister_op .h v din,
    decode_setRegister_op .l v din, ?_⟩
  exact ⟨exec_setRegister .a v s, exec_setRegister .b v s, exec_setRegister .c v s, exec_setRegister .d v s,
    exec_setRegister .e v s, exec_setRegister .h v s, exec_setRegister .l v s⟩

/-- Settles O23: GET_F changes only the result, which is the vector of the stored flags placed on `dout`. -/
theorem getFReturnsTheStoredFlags : Obligations.GetFReturnsTheStoredFlags := by
  intro s din
  refine ⟨placeFlags (flagsToVector s.regs.f), exec_eq .getF s, ?selector, ?bits⟩
  case selector => simp [decode]
  case bits => simp [toNat_placeFlags_lt]

/-- Settles O24: SET_F stores the flags of its vector, which R75 reads off bit by bit. -/
theorem setFWritesAllFourFlags : Obligations.SetFWritesAllFourFlags := by
  intro fv s din
  refine ⟨?selector, exec_eq (.setF fv) s⟩
  case selector => simp [decode, Request.flagOperand]

end Sys2Proof.Proofs

/-! ## Totality of the operations (R77) -/

namespace Sys2Proof.Machine

/-- An instruction that names an operation completes from every state and is not refused. -/
theorem exec_completes_unrefused {i : Instr} (h : i.wellFormed = true) (s : State) :
    ∃ t, exec i s = .next t ∧ t.refusalMark = s.refusalMark := by
  refine ⟨_, exec_eq i s, ?mark⟩
  case mark => simp [h]

end Sys2Proof.Machine

namespace Sys2Proof.Proofs

open Sys2Proof.Machine

/-- Settles O47: `exec_eq` sets the mark for a reserved instruction only, and a step with a request issued runs
it on a state with the same mark. -/
theorem everyNamedOperationSucceeds : Obligations.EveryNamedOperationSucceeds := by
  refine ⟨fun i s h => exec_completes_unrefused h s, fun r rest s h => ?step⟩
  case step =>
    rw [step_cons]
    exact exec_completes_unrefused h { s with input := rest }

end Sys2Proof.Proofs

/-! ## Selectors and the table's rows (R34 to R37, R40) -/

namespace Sys2Proof

open Sys2Proof.Safety

/-- The six instructions that name no operation are those with a reserved selector (R40). -/
theorem wellFormed_eq_false_iff (i : Instr) : i.wellFormed = false ↔ (encode i).op ∈ reservedSelectors := by
  cases i <;> simp [Instr.wellFormed, encode, reservedSelectors]

theorem decode_wellFormed_eq_false_iff (r : Request) : (decode r).wellFormed = false ↔ r.op ∈ reservedSelectors := by
  rw [wellFormed_eq_false_iff, encode_decode_op]

/-- No two rows have one selector, so a row is found by its selector. -/
theorem eq_of_op_eq {x y : OpcodeRow} (hx : x ∈ opcodeTable) (hy : y ∈ opcodeTable) (h : x.op = y.op) : x = y :=
  List.inj_on_of_nodup_map (by decide : (opcodeTable.map OpcodeRow.op).Nodup) hx hy h

/-- No two rows have one mnemonic, so a row is found by its mnemonic. -/
theorem eq_of_mnemonic_eq {x y : OpcodeRow} (hx : x ∈ opcodeTable) (hy : y ∈ opcodeTable)
    (h : x.mnemonic = y.mnemonic) : x = y :=
  List.inj_on_of_nodup_map (by decide : (opcodeTable.map OpcodeRow.mnemonic).Nodup) hx hy h

/-- Bit 4 of a selector, W, tells the two halves of the table apart (R34). -/
theorem op_bit4_of_mem_readRows : ∀ row ∈ readRows, row.op.getLsbD 4 = false := by decide

theorem op_bit4_of_mem_writeRows : ∀ row ∈ writeRows, row.op.getLsbD 4 = true := by decide

end Sys2Proof

namespace Sys2Proof.Proofs

open Sys2Proof.Machine Sys2Proof.Safety Sys2Proof.Laws.TableRow

/-- Settles O3: `decode_encode`, which goes by the instruction's operand width. -/
theorem decodeEncodeRoundTrip : Obligations.DecodeEncodeRoundTrip := decode_encode

/-- Settles O38: a step with nothing issued changes nothing; any other runs an operation, which leaves the mark
clear, and takes it off the queue. -/
theorem safeRunIsKeptByEveryStep : Obligations.SafeRunIsKeptByEveryStep := by
  intro s ⟨hmark, hissued⟩
  rcases step_cases s with ⟨-, hstep⟩ | ⟨r, rest, hinput, hstep⟩
  · exact ⟨s, hstep, hmark, hissued⟩
  · rw [OnlyOperationsIssued, hinput, List.forall_mem_cons] at hissued
    obtain ⟨hr, hrest⟩ := hissued
    refine ⟨_, hstep.trans (exec_eq ..), ?mark, hrest⟩
    case mark => simpa [NeverRefused, hr] using hmark

/-- Settles O2: each instruction has a row of its own, and rows differ in selector and in mnemonic. -/
theorem everyOperationHasOneSelector : Obligations.EveryOperationHasOneSelector := by
  refine ⟨fun i j => ⟨fun h => ?mnemonic, fun h => ?selector⟩, decode_wellFormed_eq_false_iff,
    fun r => ⟨fun h => ?row, ?bit⟩⟩
  case mnemonic => exact congrArg OpcodeRow.mnemonic (eq_of_op_eq (row_mem i) (row_mem j) h)
  case selector => exact congrArg OpcodeRow.op (eq_of_mnemonic_eq (row_mem i) (row_mem j) h)
  case row =>
    obtain ⟨row, hmem, hmnemonic, hop, -⟩ := statement_of_row (decode r)
    rw [encode_decode_op] at hop
    refine ⟨row, ?_, hmnemonic, hop⟩
    refine (List.mem_append.mp hmem).resolve_right fun hwrite => ?_
    have hW := op_bit4_of_mem_writeRows row hwrite
    rw [hop, h] at hW
    contradiction
  case bit =>
    rintro ⟨row, hread, -, hop⟩
    rw [← hop]
    exact op_bit4_of_mem_readRows row hread

end Sys2Proof.Proofs

/-! ## The text form (R41) -/

namespace Sys2Proof.Machine

open Sys2Proof.Laws.TableRow

/-- A mnemonic has no blank, so the printed blank is the first one. -/
theorem mnemonic_ne_blank (i : Instr) : ∀ c ∈ i.mnemonic.toList, c ≠ ' ' := by
  cases i <;> simp [Instr.mnemonic]

/-- Text without a blank is all mnemonic. -/
theorem splitBlank_of_no_blank {m : List Char} (h : ∀ c ∈ m, c ≠ ' ') : splitBlank m = (m, none) := by
  induction m with
  | nil => rfl
  | cons c cs ih => simp [splitBlank, h c (by simp), ih fun d hd => h d (by simp [hd])]

/-- The assembler finds an operation's own row by its mnemonic. -/
theorem rowOfMnemonic_mnemonic {i : Instr} (h : i.wellFormed = true) :
    rowOfMnemonic i.mnemonic.toList = some ⟨i.mnemonic, (encode i).op, operandBits i, false⟩ := by
  have hmem := row_mem i
  rw [h, Bool.not_true] at hmem
  obtain ⟨row, hrow⟩ : ∃ row, rowOfMnemonic i.mnemonic.toList = some row :=
    Option.isSome_iff_exists.mp (List.find?_isSome.mpr ⟨_, hmem, by simp⟩)
  obtain ⟨hrowMem, -, hname⟩ := rowOfMnemonic_spec hrow
  rw [hrow, eq_of_mnemonic_eq hrowMem hmem (String.toList_injective hname)]

/-- An operation without an operand is its mnemonic alone. -/
theorem assemble_printInstr_of_no_operand {i : Instr} (h : i.wellFormed = true) (htext : operandText i = [])
    (hbits : operandBits i = 0) (hdin : (encode i).din = 0#16) : assemble (printInstr i) = some (encode i) := by
  rw [printInstr, htext, List.append_nil, assemble, splitBlank_of_no_blank (mnemonic_ne_blank i),
    rowOfMnemonic_mnemonic h]
  simp [assembleRow, hbits, ← hdin]

/-- An operation with an operand is its mnemonic, a blank and a literal that is read as that operand. -/
theorem assemble_printInstr_of_operand {i : Instr} {lit : List Char} {width : Nat} {v : BitVec width}
    (h : i.wellFormed = true) (htext : operandText i = ' ' :: lit) (hlit : readLiteral lit = some v.toNat)
    (hbits : operandBits i = width) (hwidth : width ≠ 0) (hdin : (encode i).din = v.setWidth 16) :
    assemble (printInstr i) = some (encode i) := by
  subst hbits
  rw [printInstr, htext, assemble_operand (mnemonic_ne_blank i) (rowOfMnemonic_mnemonic h) hlit hwidth v.isLt,
    BitVec.ofNat_toNat, ← hdin]

/-- A row's request has the row's selector and an operand that fits its width. -/
theorem assembleRow_spec {row : OpcodeRow} {operand : Option Nat} {r : Request}
    (h : assembleRow row operand = some r) : r.op = row.op ∧ r.din.toNat < 2 ^ row.operandBits := by
  cases operand with
  | none =>
    obtain ⟨-, rfl⟩ := Option.ite_some_none_eq_some.mp h
    exact ⟨rfl, Nat.two_pow_pos _⟩
  | some n =>
    obtain ⟨⟨-, hn⟩, rfl⟩ := Option.ite_some_none_eq_some.mp h
    exact ⟨rfl, (Nat.mod_le ..).trans_lt hn⟩

/-- Whatever is assembled is the request of the row its mnemonic finds. -/
theorem assemble_spec {text : List Char} {r : Request} (h : assemble text = some r) :
    ∃ row operand, rowOfMnemonic (splitBlank text).1 = some row ∧ assembleRow row operand = some r := by
  rw [assemble] at h
  split at h
  next row hrow _ => exact ⟨row, none, hrow, h⟩
  next row lit hrow _ =>
    split at h
    next n _ => exact ⟨row, some n, hrow, h⟩
    next => contradiction
  next => contradiction

end Sys2Proof.Machine

namespace Sys2Proof

open Sys2Proof.Safety

/-- An operation's row has a selector that is not reserved and the mask of its lowest `operandBits` bits (R37). -/
theorem operandMask_of_mem_opcodeTable : ∀ row ∈ opcodeTable, row.reserved = false →
    row.op ∉ reservedSelectors ∧ (operandMask row.op).toNat = 2 ^ row.operandBits - 1 := by decide

/-- A value below `2 ^ n` loses nothing to the mask of the lowest `n` bits. -/
theorem and_eq_self_of_lt {v mask : Word16} {n : Nat} (hmask : mask.toNat = 2 ^ n - 1) (hv : v.toNat < 2 ^ n) :
    v &&& mask = v := by
  apply BitVec.eq_of_toNat_eq
  rw [BitVec.toNat_and, hmask, Nat.and_two_pow_sub_one_of_lt_two_pow hv]

end Sys2Proof

namespace Sys2Proof.Proofs

open Sys2Proof.Machine Sys2Proof.Safety

/-- Settles O6: the mnemonic finds the operation's row, and each literal is read as the operand it was printed
from. -/
theorem printedOperationAssemblesToItsRequest : Obligations.PrintedOperationAssemblesToItsRequest := by
  intro i h
  cases i with
  | flagsEncode fv | setF fv =>
    exact assemble_printInstr_of_operand h rfl (readLiteral_binaryLiteral fv) rfl (by decide) rfl
  | setA v | setB v | setC v | setD v | setE v | setH v | setL v | flagsDecode v =>
    exact assemble_printInstr_of_operand h rfl (readLiteral_byteLiteral v) rfl (by decide) rfl
  | setAF v | setBC v | setDE v | setHL v =>
    exact assemble_printInstr_of_operand h rfl (readLiteral_wordLiteral v) rfl (by decide) (BitVec.setWidth_eq v).symm
  | reserved0D | reserved0E | reserved0F | reserved1D | reserved1E | reserved1F => contradiction
  | _ => exact assemble_printInstr_of_no_operand h rfl rfl rfl

/-- Settles O7: `rowOfMnemonic` finds no reserved row, and an operand that fits stands inside the row's mask. -/
theorem assembledTextNamesAnOperationWithAFittingOperand :
    Obligations.AssembledTextNamesAnOperationWithAFittingOperand := by
  intro text r h
  obtain ⟨row, operand, hrow, hassembled⟩ := assemble_spec h
  obtain ⟨hop, hfits⟩ := assembleRow_spec hassembled
  obtain ⟨hmem, hnamed, -⟩ := rowOfMnemonic_spec hrow
  obtain ⟨hselector, hmask⟩ := operandMask_of_mem_opcodeTable row hmem hnamed
  rw [← hop] at hselector hmask
  exact ⟨by simpa using mt (decode_wellFormed_eq_false_iff r).mp hselector, and_eq_self_of_lt hmask hfits⟩

end Sys2Proof.Proofs

/-! ## Reserved instructions and reads (R29, R40) -/

namespace Sys2Proof.Machine

open Sys2Proof.Safety

/-- An instruction that names no operation is refused (R40). -/
theorem exec_of_not_wellFormed {i : Instr} (h : i.wellFormed = false) (s : State) : exec i s = .next s.refuse := by
  cases i with
  | reserved0D | reserved0E | reserved0F | reserved1D | reserved1E | reserved1F => rfl
  | _ => contradiction

/-- Only SET_AF and SET_F write the flags (R16). -/
theorem flagsWrite_eq_none {i : Instr} (hAF : ∀ v, i ≠ .setAF v) (hF : ∀ fv, i ≠ .setF fv) :
    flagsWrite i = none := by
  cases i with
  | setAF v => exact absurd rfl (hAF v)
  | setF fv => exact absurd rfl (hF fv)
  | _ => rfl

/-- An instruction whose selector bit W is 0 writes nothing (R29). -/
theorem storedAfter_of_op_bit4 {i : Instr} (h : (encode i).op.getLsbD 4 = false) (rf : RegisterFile) :
    storedAfter [i] rf = rf := by
  cases i with
  | getA | getB | getC | getD | getE | getH | getL | getF | getAF | getBC | getDE | getHL => rfl
  | flagsEncode fv => rfl
  | reserved0D | reserved0E | reserved0F => rfl
  | _ => simp [encode] at h

/-- Writing the same values again stores nothing new. -/
@[simp] theorem storedAfter_storedAfter (i : Instr) (rf : RegisterFile) :
    storedAfter [i] (storedAfter [i] rf) = storedAfter [i] rf :=
  RegisterFile.ext_read (fun r => by cases h : registerWrite i r <;> simp [h])
    (by cases h : flagsWrite i <;> simp [h])

/-- No instruction's result depends on what it writes itself: a write returns nothing, the others write nothing. -/
@[simp] theorem resultOn_storedAfter (i : Instr) (rf : RegisterFile) :
    resultOn i (storedAfter [i] rf) = resultOn i rf := by
  cases i <;> rfl

/-- With nothing issued a step keeps the state. -/
theorem step_of_input_nil {s : State} (h : s.input = []) : step s = .next s := by
  rw [step, State.fetch_nil h]

/-- With a request issued a step runs it on the state without it (R85). -/
theorem step_of_input_cons {s : State} {r : Request} {rest : List Request} (h : s.input = r :: rest) :
    step s = exec (decode r) { s with input := rest } := by
  rw [step, State.fetch_cons h]

/-- Every step answers a next state: with nothing issued the state itself, else the next state of `exec_eq`. -/
theorem step_total (s : State) : ∃ t, step s = .next t := by
  rcases step_cases s with ⟨-, hstep⟩ | ⟨r, rest, -, hstep⟩
  · exact ⟨s, hstep⟩
  · exact ⟨_, hstep.trans (exec_eq ..)⟩

end Sys2Proof.Machine

/-! ## Runs of any length (R30, R85) -/

namespace Sys2Proof.Machine

open Sys2Proof.Safety

/-- What a run of `k` steps from `s` to `t` has done: run the first `k` requests issued and no others. -/
structure Ran (k : Nat) (s t : State) : Prop where
  run : core.run k s = .next t
  regs : t.regs = storedAfter ((s.input.take k).map decode) s.regs
  input : t.input = s.input.drop k
  refusalMark : t.refusalMark = true ↔ s.refusalMark = true ∨ ∃ r ∈ s.input.take k, (decode r).wellFormed = false

/-- A step with a request issued has run that request. -/
theorem step_ran {s : State} {r : Request} {rest : List Request} (h : s.input = r :: rest) :
    ∃ u, step s = .next u ∧ u.regs = storedAfter [decode r] s.regs ∧ u.input = rest ∧
      (u.refusalMark = true ↔ s.refusalMark = true ∨ (decode r).wellFormed = false) := by
  refine ⟨_, (step_of_input_cons h).trans (exec_eq ..), rfl, rfl, ?mark⟩
  case mark => simp [or_comm]

/-- A run of any length answers a state, past the end of the queue too. -/
theorem exists_ran (k : Nat) (s : State) : ∃ t, Ran k s t := by
  induction k generalizing s with
  | zero => exact ⟨s, rfl, rfl, rfl, by simp⟩
  | succ k ih =>
    cases hinput : s.input with
    | nil =>
      obtain ⟨t, hrun, hregs, hrest, hmark⟩ := ih s
      rw [hinput, List.take_nil] at hregs hmark
      rw [hinput, List.drop_nil] at hrest
      refine ⟨t, (run_succ k (step_of_input_nil hinput)).trans hrun, ?_, ?_, ?_⟩ <;> rw [hinput] <;> assumption
    | cons r rest =>
      obtain ⟨u, hstep, hregsStep, rfl, hmarkStep⟩ := step_ran hinput
      obtain ⟨t, hrun, hregs, hrest, hmark⟩ := ih u
      refine ⟨t, (run_succ k hstep).trans hrun, ?regs, ?input, ?mark⟩ <;> rw [hinput]
      case regs => rw [hregs, hregsStep, List.take_succ_cons, List.map_cons, ← storedAfter_cons]
      case input => rw [hrest, List.drop_succ_cons]
      case mark => simp only [hmark, hmarkStep, List.take_succ_cons, List.mem_cons, exists_eq_or_imp, or_assoc]

/-- After `k` steps the request at place `k` is the oldest, and the next step runs it. -/
theorem Ran.next_step {k : Nat} {s t : State} (h : Ran k s t) {r : Request} (hr : s.input[k]? = some r) :
    core.run (k + 1) s = exec (decode r) { t with input := s.input.drop (k + 1) } := by
  have hinput : t.input = r :: s.input.drop (k + 1) := by
    rw [h.input, List.drop_eq_getElem?_toList_append, hr]
    rfl
  rw [run_snoc h.run, step_of_input_cons hinput]

/-- What a sequence of operations leaves in each register: its last write, else the old content (R30). -/
theorem read_storedAfter (is : List Instr) (rf : RegisterFile) (r : Reg8) :
    (storedAfter is rf).read r = (lastRegisterWrite r is).getD (rf.read r) := by
  cases r <;> rfl

end Sys2Proof.Machine

namespace Sys2Proof.Proofs

open Sys2Proof.Machine Sys2Proof.Safety

/-- Settles O26: the writes of every other instruction leave the flags out, and the codec gives back what it is
given, as O50 states it. -/
theorem onlyAFlagWriteChangesTheFlags : Obligations.OnlyAFlagWriteChangesTheFlags := by
  refine ⟨fun i s hAF hF => ⟨_, exec_eq i s, ?_⟩, flagsChangeOnlyByTheirOwnWrites.2⟩
  simp [flagsWrite_eq_none hAF hF]

/-- Settles O28: `exec_eq` stores the instruction's own writes, and `resultOn` is fixed by what its rule reads. -/
theorem eachOperationTouchesAndObservesOnlyItsFields : Obligations.EachOperationTouchesAndObservesOnlyItsFields :=
  ⟨fun i s => ⟨_, exec_eq i s, read_storedAfter_singleton i s.regs, storedAfter_singleton_f i s.regs⟩,
    fun i s s' hr hf => ⟨_, _, exec_eq i s, exec_eq i s', resultOn_congr hr hf⟩⟩

/-- Settles O29: reads and DECODE have no write, and a second run writes, returns and marks the same again. -/
theorem readsHaveNoEffectAndOperationsAreIdempotent : Obligations.ReadsHaveNoEffectAndOperationsAreIdempotent := by
  refine ⟨fun i s h => ⟨_, exec_eq i s, ?unchanged⟩, fun i s => ⟨_, exec_eq i s, ?again⟩⟩
  case unchanged =>
    rcases h with hW | ⟨b, rfl⟩
    · exact storedAfter_of_op_bit4 hW s.regs
    · rfl
  case again => simp [exec_eq]

/-- Settles O34: `exec_eq` answers a next state for every instruction, and a step runs one or none. -/
theorem everyOperationIsTotal : Obligations.EveryOperationIsTotal :=
  ⟨fun i s => ⟨_, exec_eq i s⟩, step_total⟩

/-- Settles O33: `exists_ran`, with the reserved selectors for the instructions that name no operation. -/
theorem markIsSetExactlyByReservedSelectors : Obligations.MarkIsSetExactlyByReservedSelectors := by
  intro k s
  obtain ⟨t, h⟩ := exists_ran k s
  exact ⟨t, h.run, by simpa only [decode_wellFormed_eq_false_iff] using h.refusalMark⟩

/-- Settles O35: `exists_ran` drops the first requests, and `Ran.next_step` runs the one that is then the oldest. -/
theorem runsConsumeOneOperationPerStep : Obligations.RunsConsumeOneOperationPerStep := by
  intro k s
  obtain ⟨t, h⟩ := exists_ran k s
  exact ⟨t, h.run, h.input, fun r => h.next_step⟩

/-- Settles O36: a run stores `storedAfter` of the requests it has run, read field by field. -/
theorem lastWriteIsWhatARunLeaves : Obligations.LastWriteIsWhatARunLeaves := by
  intro k s
  obtain ⟨t, h⟩ := exists_ran k s
  refine ⟨t, h.run, fun r => ?register, ?flags⟩
  case register => rw [h.regs, read_storedAfter]
  case flags =>
    rw [h.regs]
    rfl

end Sys2Proof.Proofs

/-! ## The pair views (R19, R20) -/

namespace Sys2Proof.Machine

open Sys2Proof.Safety

/-- Replacing the high half of a pair. -/
theorem withHigh_concat (hi lo v : Byte) : withHigh (concat hi lo) v = concat v lo := by
  rw [withHigh, concat_and_low, BitVec.or_comm]
  rfl

/-- Clearing the low half of a pair leaves its high half in place. -/
theorem concat_and_high (hi lo : Byte) : concat hi lo &&& 0xFF00#16 = hi.setWidth 16 <<< 8 := by
  ext k hk
  interval_cases k <;> simp [concat]

/-- Replacing the low half of a pair. -/
theorem withLow_concat (hi lo v : Byte) : withLow (concat hi lo) v = concat hi v := by
  rw [withLow, concat_and_high]
  rfl

theorem placeByte_hiByte (v : Word16) : placeByte (hiByte v) = v >>> 8 := by
  rw [← concat_shiftRight (hiByte v) (loByte v), concat_hiByte_loByte]

theorem placeByte_loByte (v : Word16) : placeByte (loByte v) = v &&& 0x00FF#16 := by
  rw [← concat_and_low (hiByte v) (loByte v), concat_hiByte_loByte]

/-- The vector of the flags decoded from a value's low half is bits 7:4 of the value. -/
theorem placeFlags_decodeFlags_loByte (v : Word16) :
    placeFlags (flagsToVector (decodeFlags (loByte v))) = v >>> 4 &&& 0x000F#16 := by
  rw [flagsToVector_decodeFlags, ← concat_shiftRight_and (hiByte v), concat_hiByte_loByte]

/-- AF with the flags of a vector has that vector in bits 7:4. -/
theorem concat_encodeFlags_flagsOfVector (hi : Byte) (fv : FlagVector) :
    concat hi (encodeFlags (flagsOfVector fv)) = hi.setWidth 16 <<< 8 ||| fv.setWidth 16 <<< 4 :=
  congrArg (hi.setWidth 16 <<< 8 ||| ·) (placeByte_encodeFlags_flagsOfVector fv)

/-- Replacing the low half of AF by a vector in bits 7:4 gives AF with the vector's flags. -/
theorem concat_and_high_or_vector (hi lo : Byte) (fv : FlagVector) :
    concat hi lo &&& 0xFF00#16 ||| fv.setWidth 16 <<< 4 = concat hi (encodeFlags (flagsOfVector fv)) := by
  rw [concat_and_high, concat_encodeFlags_flagsOfVector]

/-- Writing to AF a value put together from a byte and packed flags writes that byte and those flags (R53). -/
theorem writePair_af_concat (rf : RegisterFile) (hi : Byte) (fl : Flags) :
    rf.writePair .af (concat hi (encodeFlags fl)) = (rf.write .a hi).writeFlags fl := by
  simp [RegisterFile.writePair]

/-- The stored state that four pair values stand for. -/
def fileOf (p : PairFile) : RegisterFile :=
  { a := hiByte p.af, b := hiByte p.bc, c := loByte p.bc, d := hiByte p.de, e := loByte p.de
    h := hiByte p.hl, l := loByte p.hl, f := decodeFlags (loByte p.af) }

/-- The four pair views hold every stored bit. -/
@[simp] theorem fileOf_pairsOf (rf : RegisterFile) : fileOf (pairsOf rf) = rf := by
  simp [fileOf, pairsOf, RegisterFile.readPair, RegisterFile.read]

theorem pairsOf_injective : Function.Injective pairsOf := Function.LeftInverse.injective fileOf_pairsOf

/-- The four pair writes leave nothing of the old stored state. -/
theorem run_setPairs (p : PairFile) (s : State) :
    ∃ t, core.run 4 { s with
        input := [encode (.setAF p.af), encode (.setBC p.bc), encode (.setDE p.de), encode (.setHL p.hl)] } = .next t ∧
      t.regs = fileOf p ∧ t.input = [] := by
  obtain ⟨t, hrun, hregs, hinput⟩ :=
    run_issued [encode (.setAF p.af), encode (.setBC p.bc), encode (.setDE p.de), encode (.setHL p.hl)] [] s
  simp only [List.map_cons, List.map_nil, decode_encode] at hregs
  exact ⟨t, hrun, hregs, hinput⟩

/-- Every instruction changes the pair views as it changes the design of four words. -/
theorem pairsOf_storedAfter_singleton (i : Instr) (rf : RegisterFile) :
    pairsOf (storedAfter [i] rf) = pairStore i (pairsOf rf) := by
  cases i with
  | setA v | setB v | setD v | setH v =>
    simp only [pairStore, pairsOf, RegisterFile.readPair, withHigh_concat]
    rfl
  | setC v | setE v | setL v =>
    simp only [pairStore, pairsOf, RegisterFile.readPair, withLow_concat]
    rfl
  | setF fv =>
    simp only [pairStore, pairsOf, RegisterFile.readPair, concat_and_high_or_vector]
    rfl
  | setAF v => exact congrArg (fun w => { pairsOf rf with af := w }) (readPair_writePair_af rf v)
  | setBC v => exact congrArg (fun w => { pairsOf rf with bc := w }) (concat_hiByte_loByte v)
  | setDE v => exact congrArg (fun w => { pairsOf rf with de := w }) (concat_hiByte_loByte v)
  | setHL v => exact congrArg (fun w => { pairsOf rf with hl := w }) (concat_hiByte_loByte v)
  | _ => rfl

/-- A sequence of operations leaves the words that the design of four words has after it. -/
theorem pairsOf_storedAfter (is : List Instr) (rf : RegisterFile) :
    pairsOf (storedAfter is rf) = pairsAfterRun is (pairsOf rf) := by
  induction is generalizing rf with
  | nil => rfl
  | cons i is ih => rw [storedAfter_cons, ih, pairsOf_storedAfter_singleton, pairsAfterRun]

/-- The last step of a run returns what its operation gives on what the steps before it stored. -/
theorem Ran.result {k : Nat} {s t : State} (h : Ran (k + 1) s t) {r : Request} (hr : s.input[k]? = some r) :
    t.result = resultOn (decode r) (storedAfter ((s.input.take k).map decode) s.regs) := by
  obtain ⟨u, hu⟩ := exists_ran k s
  have hlast := h.run.symm.trans ((hu.next_step hr).trans (exec_eq ..))
  rw [Host.Outcome.next.inj hlast, ← hu.regs]

/-- One operation after another: the second's result is taken on what the first stored. -/
theorem exec_exec_result {i j : Instr} {s : State} {v : Word16}
    (h : resultOn j (storedAfter [i] s.regs) = some v) :
    ∃ t u, exec i s = .next t ∧ exec j t = .next u ∧ u.result = some v :=
  ⟨_, _, exec_eq i s, exec_eq j _, h⟩

/-- The register written is what the next read of it returns. -/
theorem getRegister_after_setRegister (r : Reg8) (v : Byte) (s : State) :
    ∃ t u, exec (setRegister r v) s = .next t ∧ exec (getRegister r) t = .next u ∧
      u.result = some (v.setWidth 16) :=
  ⟨_, _, exec_setRegister r v s, exec_getRegister r _, by simp [placeByte]⟩

end Sys2Proof.Machine

namespace Sys2Proof.Proofs

open Sys2Proof.Machine Sys2Proof.Safety

/-- Settles O18: AF reads back without bits 3:0, and those are zero in every value that GET_AF returns. -/
theorem afRoundTripClearsTheLowNibble : Obligations.AFRoundTripClearsTheLowNibble := by
  refine ⟨fun v unused rest s => ⟨_, run_setPair_getPair .af .af v unused rest s, ?back⟩,
    fun s => ⟨_, _, _, exec_getPair .af s, rfl, exec_setPair .af _ _, ?kept⟩⟩
  case back => exact congrArg some (readPair_writePair_af s.regs v)
  case kept => exact writePair_af_concat s.regs s.regs.a s.regs.f

/-- Settles O22: `exec_exec_result` for each write and read, with the law of the half or the flags it goes
through. -/
theorem writesAreSeenThroughTheOtherView : Obligations.WritesAreSeenThroughTheOtherView := by
  intro v w fv s
  have high (hi lo : Byte) : some (concat v lo) = some (withHigh (concat hi lo) v) :=
    congrArg some (withHigh_concat hi lo v).symm
  have low (hi lo : Byte) : some (concat hi v) = some (withLow (concat hi lo) v) :=
    congrArg some (withLow_concat hi lo v).symm
  have highRead : some (placeByte (hiByte w)) = some (w >>> 8) := congrArg some (placeByte_hiByte w)
  have lowRead : some (placeByte (loByte w)) = some (w &&& 0x00FF#16) := congrArg some (placeByte_loByte w)
  refine ⟨exec_exec_result (high ..), exec_exec_result (high ..), exec_exec_result (low ..),
    exec_exec_result (high ..), exec_exec_result (low ..), exec_exec_result (high ..), exec_exec_result (low ..),
    exec_exec_result highRead, exec_exec_result highRead, exec_exec_result lowRead, exec_exec_result highRead,
    exec_exec_result lowRead, exec_exec_result highRead, exec_exec_result lowRead, ?_⟩
  refine ⟨exec_exec_result (congrArg some (concat_encodeFlags_flagsOfVector ..)),
    exec_exec_result (congrArg some (placeFlags_decodeFlags_loByte w)),
    exec_exec_result (congrArg (some ∘ placeFlags) (flagsToVector_flagsOfVector fv)), ?_⟩
  exact ⟨getRegister_after_setRegister .a v s, getRegister_after_setRegister .b v s,
    getRegister_after_setRegister .c v s, getRegister_after_setRegister .d v s, getRegister_after_setRegister .e v s,
    getRegister_after_setRegister .h v s, getRegister_after_setRegister .l v s⟩

/-- Settles O25: GET_F's result stands in bits 7:4 of AF, and AF with those bits replaced is A with the new
flags. -/
theorem flagAccessEqualsTheAFSequence : Obligations.FlagAccessEqualsTheAFSequence := by
  intro fv s
  refine ⟨_, _, _, _, _, exec_getPair .af s, rfl, exec_eq .getF s, ?getF, exec_setPair .af _ _, exec_eq (.setF fv) s,
    ?setF⟩
  case getF => exact congrArg some (placeFlags_eq_readPair_af s.regs)
  case setF =>
    exact (congrArg (s.regs.writePair .af) (concat_and_high_or_vector ..)).trans (writePair_af_concat ..)

/-- Settles O41: `fileOf` reads the stored state back off its views, and a pair write stays in its pair. -/
theorem pairViewsDetermineTheStoredState : Obligations.PairViewsDetermineTheStoredState :=
  ⟨fun _ _ => pairsOf_injective.eq_iff, fun _ _ v x h => x.readPair_writePair_of_ne h v⟩

/-- Settles O42: the four values are the target's own pair views, which hold all of it. -/
theorem everyRegisterFileIsReachable : Obligations.EveryRegisterFileIsReachable := by
  intro target s
  obtain ⟨t, hrun, hregs, hinput⟩ := run_setPairs (pairsOf target) s
  exact ⟨_, _, _, _, t, hrun, hregs.trans (fileOf_pairsOf target), hinput⟩

/-- Settles O40: the two designs store and return alike for one instruction, and so along a run. -/
theorem pairDesignSimulatesTheBlock : Obligations.PairDesignSimulatesTheBlock := by
  refine ⟨fun i s => ⟨_, exec_eq i s, pairsOf_storedAfter_singleton i s.regs, resultOn_eq_pairResult i s.regs⟩,
    fun k s => ?run⟩
  obtain ⟨t, h⟩ := exists_ran k s
  have hpairs := (congrArg pairsOf h.regs).trans (pairsOf_storedAfter ..)
  refine ⟨t, h.run, hpairs, fun r hr => ⟨_, (h.next_step hr).trans (exec_eq ..), ?result⟩⟩
  rw [← hpairs]
  exact resultOn_eq_pairResult ..

/-- Settles O37: a run's stored bits are those of `storedAfter`, and its last result is taken on what the steps
before it stored. -/
theorem resultsDependOnlyOnStoredStateAndInputs : Obligations.ResultsDependOnlyOnStoredStateAndInputs := by
  intro k s s' hregs htake
  obtain ⟨t, h⟩ := exists_ran k s
  obtain ⟨t', h'⟩ := exists_ran k s'
  refine ⟨t, t', h.run, h'.run, ?regs, ?input, ?result⟩
  case regs => rw [h.regs, h'.regs, hregs, htake]
  case input => exact fun hin => by rw [h.input, h'.input, hin]
  case result =>
    intro hpos hle
    obtain ⟨j, rfl⟩ := Nat.exists_eq_succ_of_ne_zero hpos.ne'
    have hr : s.input[j]? = some s.input[j] := List.getElem?_eq_getElem hle
    have hr' : s'.input[j]? = some s.input[j] := by
      rw [← hr, ← List.getElem?_take_of_succ, ← htake, List.getElem?_take_of_succ]
    have hearlier : s.input.take j = s'.input.take j := by
      simpa [List.take_take] using congrArg (List.take j) htake
    rw [h.result hr, h'.result hr', hregs, hearlier]

end Sys2Proof.Proofs

/-! ## Words, and the laws of one step (log 2, log 3) -/

namespace Sys2Proof

/-- Reading the word of a request gives the request (log 2). -/
@[simp] theorem ofWord_toWord (r : Request) : Request.ofWord r.toWord = .ok r := by
  obtain ⟨op, din⟩ := r
  have hop := op.isLt
  have hdin := din.isLt
  have hlow : (op.toNat + 256 * din.toNat) % 256 = op.toNat := by omega
  have hhigh : (op.toNat + 256 * din.toNat) / 256 = din.toNat := by omega
  have hselector : BitVec.ofNat 5 (op.toNat + 256 * din.toNat) = op := by
    apply BitVec.eq_of_toNat_eq
    rw [BitVec.toNat_ofNat]
    omega
  rw [Request.toWord, Request.ofWord, hlow, hhigh, hselector, if_neg (by omega), if_neg (by omega),
    BitVec.ofNat_toNat, BitVec.setWidth_eq]

/-- The word of a request has 24 bits (log 2). -/
theorem toWord_lt (r : Request) : r.toWord < 2 ^ 24 := by
  have hop := r.op.isLt
  have hdin := r.din.isLt
  rw [Request.toWord]
  omega

/-- An instruction read from a table word is the one its request names. -/
theorem decodeTableWord_eq_some {nbits w : Nat} {i : Instr} (h : decodeTableWord nbits w = some i) :
    ∃ r, Request.ofTableWord nbits w = .ok r ∧ decode r = i := by
  rw [decodeTableWord] at h
  split at h
  next r hr => exact ⟨r, hr, Option.some.inj h⟩
  next => contradiction

end Sys2Proof

namespace Sys2Proof.Proofs

open Sys2Proof.Machine Sys2Proof.Safety

/-- Settles O46: a request's word has 24 bits, so none of it is cut off. -/
theorem wordFormRoundTrip : Obligations.WordFormRoundTrip := by
  refine ⟨ofWord_toWord, fun i => ?_⟩
  rw [decodeTableWord, Request.ofTableWord, Nat.mod_eq_of_lt (toWord_lt _), ofWord_toWord]
  exact congrArg some (decode_encode i)

/-- Settles O5: each word is read and its request decoded by computation. -/
theorem sampleWordsDecodeAsTheirRows : Obligations.SampleWordsDecodeAsTheirRows := by
  unfold Obligations.SampleWordsDecodeAsTheirRows
  decide

/-- Settles O12: encoding loses only what decoding does not look at. -/
theorem byteRoundTripLosesOnlyTheLowNibble : Obligations.ByteRoundTripLosesOnlyTheLowNibble := by
  refine ⟨encodeFlags_decodeFlags, fun b b' => ⟨fun h => ?high, fun h => ?decode⟩⟩
  case high => rw [← encodeFlags_decodeFlags, h, encodeFlags_decodeFlags]
  case decode => rw [← decodeFlags_and_high, h, decodeFlags_and_high]

/-- Settles O13: `flagsToVector_bits` gives the bits, `flagsToVector_eq` and `encodeFlags_eq` the two shifts. -/
theorem flagVectorIsTheHighNibbleOfThePackedByte : Obligations.FlagVectorIsTheHighNibbleOfThePackedByte := by
  refine ⟨fun fl => ?_, flagsToVector_flagsOfVector⟩
  obtain ⟨hzero, hsubtraction, hhalfCarry, hcarry⟩ := flagsToVector_bits fl
  refine ⟨hzero, hsubtraction, hhalfCarry, hcarry, ?shiftRight, encodeFlags_eq fl, flagsOfVector_flagsToVector fl⟩
  case shiftRight =>
    rw [flagsToVector_eq]
    ext k hk
    interval_cases k <;> simp

/-- Settles O31: the selector's instruction names no operation, so the step that runs it is refused. -/
theorem refusedStepChangesOnlyTheMark : Obligations.RefusedStepChangesOnlyTheMark := by
  intro op din rest s h
  rw [step_cons, exec_of_not_wellFormed ((decode_wellFormed_eq_false_iff ⟨op, din⟩).mpr h)]
  rfl

/-- Settles O32: `exec_of_not_wellFormed` for each of the six. -/
theorem reservedInstructionsComplete : Obligations.ReservedInstructionsComplete := by
  intro s i hi
  have hreserved : ∀ i ∈ [Instr.reserved0D, .reserved0E, .reserved0F, .reserved1D, .reserved1E, .reserved1F],
      i.wellFormed = false := by decide
  exact exec_of_not_wellFormed (hreserved i hi) s

/-- Settles O39: nothing waits after reset, and one operation more leaves only operations waiting. -/
theorem resetIsASafeRun : Obligations.ResetIsASafeRun := by
  refine ⟨⟨rfl, List.forall_mem_nil _⟩, fun s r ⟨hmark, hissued⟩ hr => ⟨hmark, ?issued⟩⟩
  case issued =>
    rw [OnlyOperationsIssued, State.issue_input, List.forall_mem_append, List.forall_mem_singleton]
    exact ⟨hissued, hr⟩

/-- Settles O43: `step_cons` and `step_of_input_nil`. -/
theorem stepRunsTheOldestRequest : Obligations.StepRunsTheOldestRequest :=
  ⟨fun s r rest => step_cons r rest s, fun _ => step_of_input_nil⟩

/-- Settles O44: the word's request is issued first, and a step runs what it decodes to. -/
theorem fetchedWordIsRunNext : Obligations.FetchedWordIsRunNext := by
  intro s nbits w i h
  obtain ⟨r, hr, rfl⟩ := decodeTableWord_eq_some h
  rw [State.withFetchWord, hr]
  exact step_cons r s.input s

/-- Settles O45: construction holds what it is given, and the first request issued is alone in the queue. -/
theorem firstStateIsTheSuppliedInitState : Obligations.FirstStateIsTheSuppliedInitState :=
  ⟨fun init r => ⟨rfl, step_cons r [] (State.construct init)⟩, rfl, rfl, rfl, rfl⟩

end Sys2Proof.Proofs
